-- ==== Sys2Proof/Word.lean ====
section
/-! DEFINITION. The value types of the CLP ISA (00_scope.md R6): a Byte, a Half (the type of
dataOperand) and a Word, all unsigned, all arithmetic modulo 2^width. -/

namespace Sys2Proof

/-- An integer in [0, 255] (R6). -/
abbrev Byte := BitVec 8

/-- An integer in [0, 65535], the type of `dataOperand` (R6). -/
abbrev Half := BitVec 16

/-- An unsigned integer in [0, 2^32 - 1] whose arithmetic wraps modulo 2^32 (R6). -/
abbrev Word := BitVec 32

end Sys2Proof
end

