-- ==== Sys2Proof/Config.lean ====
section
/-! DEFINITION. The parameters of the hardware (00_scope.md R5, 10_state.md R35): what is fixed for a machine and
is not state. The decoder, the memory primitives, the step and the runs take them as an argument; the machine of the
fixed names (`decode`, `exec`, `step`) is the one at the defaults given here (log 20). -/

namespace Sys2Proof

/-- The fourteen operations, in the order of the opcode map's table (30_encoding.md R86). -/
inductive Mnemonic where
  | HALT
  | NOP
  | LOAD_IMMEDIATE_1
  | LOAD_IMMEDIATE_2
  | LOAD_DIRECT
  | STORE_DIRECT
  | LOAD_INDIRECT
  | STORE_INDIRECT
  | MOV
  | ADD
  | SUB
  | MUL
  | JMP
  | JNZ
  deriving DecidableEq, Repr

/-- Every operation, in table order. -/
def Mnemonic.all : List Mnemonic :=
  [.HALT, .NOP, .LOAD_IMMEDIATE_1, .LOAD_IMMEDIATE_2, .LOAD_DIRECT, .STORE_DIRECT, .LOAD_INDIRECT,
    .STORE_INDIRECT, .MOV, .ADD, .SUB, .MUL, .JMP, .JNZ]

/-- `OPCODE_MAP`, the 8-bit value of each operation. Any injective map is a legal instance (R86). -/
abbrev OpcodeMap := Mnemonic → Byte

/-- The two stopping protocols a driver may follow (70_reset_and_hazards.md R207). -/
inductive HaltProtocol where
  | peek
  | signal
  deriving DecidableEq, Repr

/-- What a word access does whose four bytes would pass address 0xFFFFFFFF: raise, or go on at address 0, the
alternative decision D3 sets aside (20_memory.md R58; log 3). -/
inductive PastTop where
  | raise
  | wrap
  deriving DecidableEq, Repr

/-- The parameters of the specification (R5, R35, R207): the open ones, and the values R5 marks `decision`. -/
structure Config where
  /-- `OPCODE_MAP` (R86). -/
  opcodeMap : OpcodeMap
  /-- `ADDR_CAP`, a bound on addressable bytes; `none` is "no cap" (20_memory.md R59). -/
  addrCap : Option Nat
  /-- The behaviour of a 4-byte access that would pass address 0xFFFFFFFF (R58). -/
  pastTop : PastTop
  /-- The alignment required of a word access, in bytes; 1 is "none" (R57). A model that requires more gives a
  misaligned access no meaning (93_implementation_defined.md U10). -/
  alignment : Nat
  /-- What memoryAddressRegister holds after a word access, of the access's address and word (R60). -/
  marAfter : (address word : Word) → Word
  /-- What memoryBufferRegister holds after a word access, of the access's address and word (R60). -/
  mbrAfter : (address word : Word) → Word
  /-- The width of stackPointer and baseRegister, in bits (10_state.md R26). The state's own type takes the default
  machine's; no rule reads or writes either register after construct. -/
  pointerWidth : Nat
  /-- Which protocol the driver follows (R207). -/
  haltProtocol : HaltProtocol

/-- The default `OPCODE_MAP`: 0x00 to 0x0D in table order.
UNVERIFIED (the spec's decision D1; log 1; unsafe for claims about concrete bytes). -/
def OpcodeMap.default : OpcodeMap
  | .HALT => 0x00#8
  | .NOP => 0x01#8
  | .LOAD_IMMEDIATE_1 => 0x02#8
  | .LOAD_IMMEDIATE_2 => 0x03#8
  | .LOAD_DIRECT => 0x04#8
  | .STORE_DIRECT => 0x05#8
  | .LOAD_INDIRECT => 0x06#8
  | .STORE_INDIRECT => 0x07#8
  | .MOV => 0x08#8
  | .ADD => 0x09#8
  | .SUB => 0x0A#8
  | .MUL => 0x0B#8
  | .JMP => 0x0C#8
  | .JNZ => 0x0D#8

/-- The parameters at the values the spec gives (R5). UNVERIFIED, the spec's own decisions: the default map (D1;
log 1), no cap (D2; log 2), the raise past the top (D3; log 3), no alignment (D5; log 5), `mar` and `mbr` the address
and the word of the most recent access (D10; log 10), 32-bit pointers (D11; log 11), SIGNAL as in the spec's test
programs (D12; log 21). -/
def Config.default : Config where
  opcodeMap := OpcodeMap.default
  addrCap := none
  pastTop := .raise
  alignment := 1
  marAfter := fun address _ => address
  mbrAfter := fun _ word => word
  pointerWidth := 32
  haltProtocol := .signal

end Sys2Proof
end

