-- ==== Sys2Proof/Syntax.lean ====
section
/-! DEFINITION. The instructions of the CLP ISA with their operands (30_encoding.md R84, R92). -/

namespace Sys2Proof

/-- One constructor per row of the opcode table.

`rt` is the registerOperand field as the word holds it, 8 bits of which only 0..7 name a register
(R81, R88; `Instr.wf`). `rs` is the source index, the low 3 bits of dataOperand (44_register_alu.md R160).
`imm`, `addr`, `cell` and `target` are the whole 16-bit dataOperand (R84). The bits R89 calls ignored
are no operand and stand in no constructor (DESIGN CHOICE, safe; log 15). -/
inductive Instr where
  /-- R130. -/
  | halt
  /-- R131. -/
  | nop
  /-- R140. -/
  | loadImmediate1 (rt : Byte) (imm : Half)
  /-- R141. -/
  | loadImmediate2 (rt : Byte) (imm : Half)
  /-- R150. -/
  | loadDirect (rt : Byte) (addr : Half)
  /-- R151. -/
  | storeDirect (rt : Byte) (addr : Half)
  /-- R152; `cell` is the address of the pointer cell. -/
  | loadIndirect (rt : Byte) (cell : Half)
  /-- R153; `cell` is the address of the pointer cell. -/
  | storeIndirect (rt : Byte) (cell : Half)
  /-- R161. -/
  | mov (rt : Byte) (rs : BitVec 3)
  /-- R162. -/
  | add (rt : Byte) (rs : BitVec 3)
  /-- R163. -/
  | sub (rt : Byte) (rs : BitVec 3)
  /-- R164. -/
  | mul (rt : Byte) (rs : BitVec 3)
  /-- R170. -/
  | jmp (target : Half)
  /-- R171. -/
  | jnz (rt : Byte) (target : Half)
  deriving DecidableEq, Repr

/-- The operation an instruction names (R86). -/
def Instr.mnemonic : Instr → Mnemonic
  | .halt => .HALT
  | .nop => .NOP
  | .loadImmediate1 _ _ => .LOAD_IMMEDIATE_1
  | .loadImmediate2 _ _ => .LOAD_IMMEDIATE_2
  | .loadDirect _ _ => .LOAD_DIRECT
  | .storeDirect _ _ => .STORE_DIRECT
  | .loadIndirect _ _ => .LOAD_INDIRECT
  | .storeIndirect _ _ => .STORE_INDIRECT
  | .mov _ _ => .MOV
  | .add _ _ => .ADD
  | .sub _ _ => .SUB
  | .mul _ _ => .MUL
  | .jmp _ => .JMP
  | .jnz _ _ => .JNZ

/-- The target-register operand of the instructions that have one (R84, column registerOperand). -/
def Instr.targetField : Instr → Option Byte
  | .halt => none
  | .nop => none
  | .loadImmediate1 rt _ => some rt
  | .loadImmediate2 rt _ => some rt
  | .loadDirect rt _ => some rt
  | .storeDirect rt _ => some rt
  | .loadIndirect rt _ => some rt
  | .storeIndirect rt _ => some rt
  | .mov rt _ => some rt
  | .add rt _ => some rt
  | .sub rt _ => some rt
  | .mul rt _ => some rt
  | .jmp _ => none
  | .jnz rt _ => some rt

end Sys2Proof
end

