-- ==== Sys2Proof/WellFormed.lean ====
section
/-! DEFINITION. When an instruction has an encoding: its target register is one of R0..R7
(30_encoding.md R88, R92). The other operands' ranges are their types. -/

namespace Sys2Proof

/-- A registerOperand field names a register: "registerOperand must index 0-7" (R88). -/
def registerFieldOk (field : Byte) : Bool := field.toNat ≤ 7

/-- Well-formed: the target register operand, where there is one, is in 0..7 (R92: "an operand outside
its range (`t` or `s` above 7, `n` above 65535) is an assembly error, not an encoding"). -/
def Instr.wf (i : Instr) : Bool :=
  match i.targetField with
  | none => true
  | some rt => registerFieldOk rt

end Sys2Proof
end

