-- ==== Sys2Proof/Decode.lean ====
section
/-! DEFINITION. Byte order, the fields of the instruction word, the decoder (total on any word and on any
bytes, rejecting by name) and after it the encoder (30_encoding.md R80 to R92). -/

namespace Sys2Proof

/-! ## Byte order (20_memory.md R53, R54, R56) -/

/-- Little-endian combine: `b0 | (b1 << 8) | (b2 << 16) | (b3 << 24)` (R53). -/
def wordOfBytes (b0 b1 b2 b3 : Byte) : Word :=
  b0.setWidth 32 ||| (b1.setWidth 32 <<< 8) ||| (b2.setWidth 32 <<< 16) ||| (b3.setWidth 32 <<< 24)

/-- Byte `k` of a word, `v[8k+7:8k]` (R54). -/
def wordByte (v : Word) (k : Nat) : Byte := v.extractLsb' (8 * k) 8

/-- A word's four bytes, the lowest address first (R54, R82). -/
def wordBytes (v : Word) : List Byte := [wordByte v 0, wordByte v 1, wordByte v 2, wordByte v 3]

/-! ## Fields (R81, R83) -/

/-- `opcode = ir & 0xFF`. -/
def opcodeField (w : Word) : Byte := w.extractLsb' 0 8

/-- `registerOperand = (ir >> 8) & 0xFF`. -/
def registerField (w : Word) : Byte := w.extractLsb' 8 8

/-- `dataOperand = ir >> 16`, a 16-bit unsigned field. -/
def dataField (w : Word) : Half := w.extractLsb' 16 16

/-- The source register index of MOV, ADD, SUB, MUL: `dop & 0x07`, so `dop[15:3]` is ignored
(44_register_alu.md R160). UNVERIFIED (the spec's decision D7; log 7; unsafe). -/
def sourceField (d : Half) : BitVec 3 := d.extractLsb' 0 3

/-! ## The opcode map in use -/

/-- The `OPCODE_MAP` of this machine: the default (R86; log 1). -/
def opcodeMap : OpcodeMap := Config.default.opcodeMap

/-- The operation an opcode value selects under `m`, if any (R86, R87). -/
def OpcodeMap.lookup (m : OpcodeMap) (o : Byte) : Option Mnemonic :=
  Mnemonic.all.find? fun k => m k == o

/-! ## The decoder (R90) -/

/-- The instruction an operation makes of its two fields (R84). -/
def Mnemonic.build (k : Mnemonic) (r : Byte) (d : Half) : Instr :=
  match k with
  | .HALT => .halt
  | .NOP => .nop
  | .LOAD_IMMEDIATE_1 => .loadImmediate1 r d
  | .LOAD_IMMEDIATE_2 => .loadImmediate2 r d
  | .LOAD_DIRECT => .loadDirect r d
  | .STORE_DIRECT => .storeDirect r d
  | .LOAD_INDIRECT => .loadIndirect r d
  | .STORE_INDIRECT => .storeIndirect r d
  | .MOV => .mov r (sourceField d)
  | .ADD => .add r (sourceField d)
  | .SUB => .sub r (sourceField d)
  | .MUL => .mul r (sourceField d)
  | .JMP => .jmp d
  | .JNZ => .jnz r d

/-- A word's verdict: one of the instructions, or one of two named rejections (R90). -/
inductive Decoded where
  | instr (i : Instr)
  | outOfRangeRegister (field : Byte)
  | unknownOpcode (opcode : Byte)
  deriving DecidableEq, Repr

/-- The decoder as a total function of the word, under any opcode map. The register field is judged
first, for every opcode value (R88, R90, 60_exceptions.md R184).
UNVERIFIED (the spec's decisions D6 and D8; logs 6 and 8; safe). -/
def decodeWith (m : OpcodeMap) (w : Word) : Decoded :=
  if registerFieldOk (registerField w) then
    match m.lookup (opcodeField w) with
    | some k => .instr (k.build (registerField w) (dataField w))
    | none => .unknownOpcode (opcodeField w)
  else .outOfRangeRegister (registerField w)

/-- The decoder of this machine. -/
def decode (w : Word) : Decoded := decodeWith opcodeMap w

/-- What a byte string decodes to: a verdict on its first four bytes and the rest, or too few bytes for an
instruction (R80). -/
inductive BytesDecoded where
  | decoded (d : Decoded) (rest : List Byte)
  | truncated (bytes : List Byte)
  deriving DecidableEq, Repr

/-- Decoding from bytes in memory order (R80 to R82). -/
def decodeBytes : List Byte → BytesDecoded
  | b0 :: b1 :: b2 :: b3 :: rest => .decoded (decode (wordOfBytes b0 b1 b2 b3)) rest
  | bytes => .truncated bytes

/-- The word a table row's bits stand for: `nbits` bits, every bit above them 0. -/
def tableWord (nbits w : Nat) : Word := BitVec.ofNat 32 (w % 2 ^ nbits)

/-- The instruction the decoder reads from a word of spec/opcode_table.json, laid out in memory order. -/
def decodeTableWord (nbits w : Nat) : Option Instr :=
  match decodeBytes (wordBytes (tableWord nbits w)) with
  | .decoded (.instr i) _ => some i
  | .decoded (.outOfRangeRegister _) _ => none
  | .decoded (.unknownOpcode _) _ => none
  | .truncated _ => none

/-! ## The encoder (R82, R92) -/

/-- `o | (r << 8) | (d << 16)` (R82). -/
def assemble (o r : Byte) (d : Half) : Word :=
  o.setWidth 32 ||| (r.setWidth 32 <<< 8) ||| (d.setWidth 32 <<< 16)

/-- The registerOperand field an instruction is written with; 0 where the field is ignored (R89, R92). -/
def Instr.encodedRegister : Instr → Byte
  | .halt => 0
  | .nop => 0
  | .loadImmediate1 rt _ => rt
  | .loadImmediate2 rt _ => rt
  | .loadDirect rt _ => rt
  | .storeDirect rt _ => rt
  | .loadIndirect rt _ => rt
  | .storeIndirect rt _ => rt
  | .mov rt _ => rt
  | .add rt _ => rt
  | .sub rt _ => rt
  | .mul rt _ => rt
  | .jmp _ => 0
  | .jnz rt _ => rt

/-- The dataOperand field an instruction is written with; 0 where the field or bit is ignored (R89, R92). -/
def Instr.encodedData : Instr → Half
  | .halt => 0
  | .nop => 0
  | .loadImmediate1 _ imm => imm
  | .loadImmediate2 _ imm => imm
  | .loadDirect _ addr => addr
  | .storeDirect _ addr => addr
  | .loadIndirect _ cell => cell
  | .storeIndirect _ cell => cell
  | .mov _ rs => rs.setWidth 16
  | .add _ rs => rs.setWidth 16
  | .sub _ rs => rs.setWidth 16
  | .mul _ rs => rs.setWidth 16
  | .jmp target => target
  | .jnz _ target => target

/-- The word an instruction assembles to under an opcode map (R92). -/
def encodeWith (m : OpcodeMap) (i : Instr) : Word :=
  assemble (m i.mnemonic) i.encodedRegister i.encodedData

/-- The word an instruction assembles to on this machine. -/
def encode (i : Instr) : Word := encodeWith opcodeMap i

/-- The bits of the word an instruction depends on: the opcode byte; the whole registerOperand and dataOperand where
they are operands (R84); of the bits R89 calls ignored, none. -/
def Instr.usedBits : Instr → Word
  | .halt => 0x000000FF#32
  | .nop => 0x000000FF#32
  | .loadImmediate1 _ _ => 0xFFFFFFFF#32
  | .loadImmediate2 _ _ => 0xFFFFFFFF#32
  | .loadDirect _ _ => 0xFFFFFFFF#32
  | .storeDirect _ _ => 0xFFFFFFFF#32
  | .loadIndirect _ _ => 0xFFFFFFFF#32
  | .storeIndirect _ _ => 0xFFFFFFFF#32
  | .mov _ _ => 0x0007FFFF#32
  | .add _ _ => 0x0007FFFF#32
  | .sub _ _ => 0x0007FFFF#32
  | .mul _ _ => 0x0007FFFF#32
  | .jmp _ => 0xFFFF00FF#32
  | .jnz _ _ => 0xFFFFFFFF#32

/-- The bytes of an instruction in memory order (R82). -/
def encodeBytes (i : Instr) : List Byte := wordBytes (encode i)

end Sys2Proof
end

