-- ==== Sys2Proof/Machine/State.lean ====
section
/-! DEFINITION. The architectural state of the core, all of it (10_state.md R20 to R34), its value after
reset (70_reset_and_hazards.md R200 to R202), and the reasons a step can stop (60_exceptions.md R180). -/

namespace Sys2Proof.Machine

/-! ## Memory as data -/

/-- What an address nobody has written holds: 0 (20_memory.md R50). -/
def Memory.unwritten : Byte := 0

/-- The 2^32 bytes of memory (10_state.md R32, 20_memory.md R50), as the list of the (address, byte) pairs
that differ from `Memory.unwritten`, in strictly rising address order (DESIGN CHOICE, safe; log 12). -/
abbrev Memory := List Host.Cell

/-- The canonical form: rising addresses, no entry equal to what an unlisted address reads as, and no
address outside the 2^32 of R32. -/
abbrev Memory.wf (m : Memory) : Prop :=
  m.Pairwise (fun c d => c.1 < d.1) ∧ ∀ c ∈ m, c.2 ≠ Memory.unwritten ∧ c.1 < 2 ^ 32

/-! ## Registers -/

/-- The six flags, present in the state and computed by no operation (10_state.md R25). -/
structure Flags where
  sign : Bool
  zero : Bool
  carry : Bool
  overflow : Bool
  interrupt : Bool
  supervisor : Bool
  deriving DecidableEq, Repr

/-- Every flag false, the reset value (R25, R34). -/
def Flags.clear : Flags := ⟨false, false, false, false, false, false⟩

/-- The type of stackPointer and baseRegister (R26; log 11). -/
abbrev PointerWord := BitVec Config.default.pointerWidth

/-- The state of the core. There is no halted latch and no other hidden state (R33). -/
structure State where
  /-- R0..R7 (R20, R21). -/
  regs : Vector Word 8
  /-- The program counter (R23, R24). -/
  pc : Word
  /-- The flags (R25). -/
  flags : Flags
  /-- stackPointer, inert; 32 bits wide is UNVERIFIED (the spec's decision D11; log 11) (R26). -/
  sp : PointerWord
  /-- baseRegister, inert; 32 bits wide is UNVERIFIED (the spec's decision D11; log 11) (R26). -/
  br : PointerWord
  /-- memoryAddressRegister (R27). -/
  mar : Word
  /-- memoryBufferRegister (R28). -/
  mbr : Word
  /-- instructionRegister (R29). -/
  ir : Word
  /-- The registerOperand latch (R30). -/
  rop : Byte
  /-- The dataOperand latch (R30). -/
  dop : Half
  /-- The memory (R32). -/
  mem : Memory
  deriving DecidableEq, Repr

/-- `construct(memory)`, the only reset: every register and flag is zero and the memory is bound as it is
(R34, R200, R202). The zeros of `sp`, `br`, `mar`, `mbr`, `ir`, `rop`, `dop` are UNVERIFIED (the spec's decision
D11; log 11; unsafe). -/
def State.construct (memory : Memory) : State where
  regs := Vector.replicate 8 0
  pc := 0
  flags := Flags.clear
  sp := 0
  br := 0
  mar := 0
  mbr := 0
  ir := 0
  rop := 0
  dop := 0
  mem := memory

/-- The machine right after reset, on a memory nobody has written (R34, R202). -/
def State.reset : State := State.construct []

/-! ## Why a step stops -/

/-- The closed list of errors (60_exceptions.md R180). Each ends the step and is handed to the driver; nothing
inside the machine reacts (R185), so an error is a fault and not a next state (93_implementation_defined.md U3).
`after` is the state the failing step leaves, which R186 gives; it is what a driver that goes on steps from
(R187). Stopping is safe; a claim about `after` rests on the spec's decision D9 (UNVERIFIED; log 9; unsafe). -/
inductive Fault where
  /-- R181: registerOperand is 8..255. Raised by every step, whatever the opcode, after the fetch
  (40_cycle.md R114), and by the register file for an index outside 0..7 (10_state.md R22). Safe (log 6). -/
  | outOfRangeRegister (field : Byte) (after : State)
  /-- R182: the opcode is not in `OPCODE_MAP`. Raised by the dispatch (40_cycle.md R115). Safe: the source
  requires the failure. -/
  | unknownOpcode (opcode : Byte) (after : State)
  /-- R183: a word access above 0xFFFFFFFC, or at or beyond `ADDR_CAP` where there is one (20_memory.md R58,
  R59). Raised by the fetch and by the data access of LOAD_INDIRECT and STORE_INDIRECT. Safe (log 3). -/
  | addressOverflow (address : Word) (after : State)
  deriving DecidableEq, Repr

/-- Refusals. No step of the machine at the spec's own parameters refuses. -/
inductive Refusal where
  /-- Raised by `exec`'s arm of an instruction that has no meaning yet; there is none such. Safe. -/
  | notModelled (mnemonic : String)
  /-- A word access at an address that is no multiple of `Config.alignment`, raised by the word primitives of a machine
  that requires alignment: U10's cautious variant ("may `refuse` programs that make one"). Safe. At the default
  alignment of 1 every address is a multiple and nothing raises it (20_memory.md R57; log 5). -/
  | misalignedAccess (address : Word)
  deriving DecidableEq, Repr

end Sys2Proof.Machine
end

