-- ==== Sys2Proof/Machine/Ops.lean ====
section
/-! DEFINITION. The named operations every instruction is written over: raising an error, the register
file, the memory primitives, and the core's word accesses (20_memory.md R50 to R60, 10_state.md R22,
60_exceptions.md R185 to R187). -/

namespace Sys2Proof.Machine

/-! ## Outcomes of an operation -/

/-- What an operation that may raise answers. -/
abbrev Result (α : Type) := Host.Outcome α Fault Refusal

/-- Sequence two operations; an error ends the step at the point where it is raised (R185). -/
def andThen {α β : Type} (r : Result α) (k : α → Result β) : Result β :=
  match r with
  | .next a => k a
  | .fault f => .fault f
  | .refused n => .refused n

/-! ## Errors: raising one, and going on after one -/

/-- `raise <Kind>(info)`: ends the step at once. No vector, no handler, no saved pc, no mode change, no flag
set: the state is left as the step has made it so far (R185, R186). -/
def raise {α : Type} (kind : State → Fault) (s : State) : Result α := .fault (kind s)

/-- The state a failing step leaves (R186). A driver that goes on steps from it; there is no return
instruction and no error is latched (R187). -/
def Fault.after : Fault → State
  | .outOfRangeRegister _ s => s
  | .unknownOpcode _ s => s
  | .addressOverflow _ s => s

/-! ## The register file (10_state.md R20 to R22) -/

/-- `get(index)` for a valid index. -/
def State.getReg (s : State) (r : Fin 8) : Word := s.regs[r.val]

/-- `set(index, v)` for a valid index. No register is hardwired (R21). -/
def State.setReg (s : State) (r : Fin 8) (v : Word) : State := { s with regs := s.regs.set r.val v }

/-- The register a registerOperand field names, or the error: "valid indices are exactly 0..7" and an index is
never reduced modulo 8 (R22, R181). A decoded instruction never raises here, because the step has judged the
field before the dispatch (40_cycle.md R114); only an ill-formed instruction term does (log 15). -/
def withTarget {α : Type} (field : Byte) (s : State) (body : Fin 8 → Result α) : Result α :=
  if h : field.toNat < 8 then body ⟨field.toNat, h⟩ else raise (.outOfRangeRegister field) s

/-- The register a 3-bit source index names; never out of range (44_register_alu.md R160). -/
def sourceReg (rs : BitVec 3) : Fin 8 := rs.toFin

/-! ## Memory as a byte store (R50 to R54) -/

/-- `mem[a]`: the listed byte, or 0 where nothing is listed (R50, R51). -/
def Memory.readByte : Memory → Nat → Byte
  | [], _ => Memory.unwritten
  | c :: rest, a => if c.1 = a then c.2 else Memory.readByte rest a

/-- The memory without an entry for `a`. -/
def Memory.erase (m : Memory) (a : Nat) : Memory := m.filter fun c => c.1 != a

/-- The memory with an entry for `a` put in address order. -/
def Memory.place : Memory → Nat → Byte → Memory
  | [], a, b => [(a, b)]
  | c :: rest, a, b => if a < c.1 then (a, b) :: c :: rest else c :: Memory.place rest a b

/-- `mem[a] <- b`, keeping the canonical form (R52; log 12). -/
def Memory.writeByte (m : Memory) (a : Nat) (b : Byte) : Memory :=
  if b = Memory.unwritten then m.erase a else Memory.place (m.erase a) a b

/-- The little-endian word of the four bytes from `a` on (R53), the inverse of `Memory.writeWord` (R55). The addresses are Words, so they wrap past the top;
only a machine whose `Config.pastTop` is `wrap` gets there (R58). -/
def Memory.readWord (m : Memory) (a : Word) : Word :=
  wordOfBytes (m.readByte a.toNat) (m.readByte (a + 1).toNat) (m.readByte (a + 2).toNat) (m.readByte (a + 3).toNat)

/-- The four byte writes of a word, its little-endian decomposition (R54, R55), in ascending address order (DEDUCED, the order cannot be
observed; log 19; safe). -/
def Memory.writeWord (m : Memory) (a : Word) (v : Word) : Memory :=
  (((m.writeByte a.toNat (wordByte v 0)).writeByte (a + 1).toNat (wordByte v 1)).writeByte (a + 2).toNat
    (wordByte v 2)).writeByte (a + 3).toNat (wordByte v 3)

/-! ## Bounds and alignment (R57 to R59) -/

/-- No cap, or every byte up to `last` is below it (R59). -/
def belowCap (c : Config) (last : Nat) : Bool :=
  match c.addrCap with
  | none => true
  | some cap => last < cap

/-- All four bytes of a word access exist: `a <= 0xFFFF_FFFC` unless the machine wraps, and `a + 3` is below the cap
(R58, R59). UNVERIFIED (the spec's decision D3; log 3; safe). -/
def wordInBounds (c : Config) (a : Word) : Bool :=
  (a.toNat ≤ 0xFFFFFFFC || c.pastTop == .wrap) && belowCap c (a.toNat + 3)

/-- The address is one the machine's alignment accepts; by default every address is (R57; UNVERIFIED, the spec's
decision D5; log 5; unsafe). -/
def wordAligned (c : Config) (a : Word) : Bool := a.toNat % c.alignment == 0

/-- A byte access goes on unless there is a cap its address reaches (R51, R59). -/
def guardByte {α : Type} (c : Config) (a : Word) (s : State) (r : Result α) : Result α :=
  if belowCap c a.toNat then r else raise (.addressOverflow a) s

/-- A word access raises before anything changes where a byte of it does not exist (R58, R59), is refused where the
machine requires an alignment the address does not have (U10), and else goes on. -/
def guardWord {α : Type} (c : Config) (a : Word) (s : State) (r : Result α) : Result α :=
  if wordInBounds c a then
    if wordAligned c a then r else .refused (.misalignedAccess a)
  else raise (.addressOverflow a) s

/-! ## The memory primitives (R51 to R54, R57 to R59) -/

/-- `MemRead(a, 1)`. -/
def memReadByte (c : Config) (a : Word) (s : State) : Result Byte :=
  guardByte c a s (.next (s.mem.readByte a.toNat))

/-- `MemWrite(a, 1, b)`. -/
def memWriteByte (c : Config) (a : Word) (b : Byte) (s : State) : Result State :=
  guardByte c a s (.next { s with mem := s.mem.writeByte a.toNat b })

/-- `MemRead(a, 4)`. -/
def memReadWord (c : Config) (a : Word) (s : State) : Result Word :=
  guardWord c a s (.next (s.mem.readWord a))

/-- `MemWrite(a, 4, v)`. -/
def memWriteWord (c : Config) (a : Word) (v : Word) (s : State) : Result State :=
  guardWord c a s (.next { s with mem := s.mem.writeWord a v })

/-! ## The core's word accesses (R60) -/

/-- The latching of a word access: by default `mar` takes its address and `mbr` the word moved (R27, R28, R60).
UNVERIFIED (the spec's decision D10; log 10; unsafe for claims about these two latches). -/
def State.latchAccess (c : Config) (s : State) (a v : Word) : State :=
  { s with mar := c.marAfter a v, mbr := c.mbrAfter a v }

/-- `LoadW(a)`. -/
def loadW (c : Config) (a : Word) (s : State) : Result (Word × State) :=
  andThen (memReadWord c a s) fun v => .next (v, State.latchAccess c s a v)

/-- `StoreW(a, v)`. -/
def storeW (c : Config) (a v : Word) (s : State) : Result State :=
  andThen (memWriteWord c a v s) fun s' => .next (State.latchAccess c s' a v)

/-! ## Placing an instruction where the next fetch finds it -/

/-- The state with the word `w` stored where the next step fetches: at `pc`, or, where no word can be fetched at
`pc`, at 0 with `pc` set to 0 (what the loader and `set programCounter` do before a run, R190, R203; DESIGN
CHOICE for an unfetchable `pc`; log 14; safe). -/
def State.placeInstruction (s : State) (w : Word) : State :=
  if wordInBounds Config.default s.pc then { s with mem := s.mem.writeWord s.pc w }
  else { s with pc := 0, mem := s.mem.writeWord 0 w }

end Sys2Proof.Machine
end

