-- ==== Sys2Proof/Machine/Operands.lean ====
section
/-! DEFINITION. Every way a field becomes a value (30_encoding.md R84, R85; 43_load_store.md R154;
44_register_alu.md R160): immediates, the two addressing modes, jump targets, the register pair of the ALU. -/

namespace Sys2Proof.Machine

/-- `zext_32(dop)`: every use of dataOperand is unsigned (R85). -/
def zext (d : Half) : Word := d.setWidth 32

/-- LOAD_IMMEDIATE_1's placement: low half replaced, high half kept (R140). -/
def withLowHalf (old : Word) (imm : Half) : Word := (old &&& 0xFFFF0000#32) ||| zext imm

/-- LOAD_IMMEDIATE_2's placement: high half replaced, low half kept (R141). -/
def withHighHalf (old : Word) (imm : Half) : Word := (old &&& 0x0000FFFF#32) ||| (zext imm <<< 16)

/-- Direct addressing: `EA = zext_32(dop)`, in 0..0xFFFF (R154). -/
def directAddress (addr : Half) : Word := zext addr

/-- The address of the pointer cell of indirect addressing, `PA = zext_32(dop)` (R154). -/
def pointerCell (cell : Half) : Word := zext cell

/-- The word the pointer cell holds, which is the effective address of indirect addressing (R154). -/
def indirectAddress (cell : Half) (s : State) : Word := s.mem.readWord (pointerCell cell)

/-- The first access of indirect addressing: the core's word read of the pointer cell, which latches
(R152, R153). -/
def loadPointer (c : Config) (cell : Half) (s : State) : Result (Word × State) := loadW c (pointerCell cell) s

/-- An absolute jump target, `zext_32(dop)`, in 0..0xFFFF (R85, R170, R171). -/
def jumpTarget (target : Half) : Word := zext target

/-- `pc <- target`, overriding the sequential advance the fetch has applied (R113, R170). -/
def State.jumpTo (s : State) (target : Half) : State := { s with pc := jumpTarget target }

/-- JNZ's condition: the register's value, all 32 bits, not a flag (R171). -/
def branchTaken (v : Word) : Bool := v != 0

end Sys2Proof.Machine
end

