-- ==== Sys2Proof/Machine/Flags.lean ====
section
/-! DEFINITION. The flag computations of the instruction set: there are none. No instruction writes any flag,
as a result or as a side effect, and none reads one (10_state.md R25); in particular "flags are not updated"
by ADD, SUB and MUL (44_register_alu.md R165). What those three leave in the flags is said here once. -/

namespace Sys2Proof.Machine

/-- The flags after ADD, SUB or MUL of the operands `a` and `b` with the result `v`: as they were (R25, R165). -/
def aluFlags (_a _b _v : Word) (old : Flags) : Flags := old

/-- The write-back of ADD, SUB and MUL: the target register takes the result, the flags what `aluFlags` says
(40_cycle.md R116, R165). -/
def writeAlu (t : Fin 8) (a b v : Word) (s : State) : State :=
  { s.setReg t v with flags := aluFlags a b v s.flags }

end Sys2Proof.Machine
end

