-- ==== Sys2Proof/Machine/ControlTransfer.lean ====
section
/-! DEFINITION. JMP and JNZ (45_control_transfer.md). When a body runs, `pc` already holds the fetch address
plus 4 (40_cycle.md R113). -/

namespace Sys2Proof.Machine

/-- R170: `pc <- zext_32(dop)`; the target is not checked. -/
def execJmp (target : Half) (s : State) : Host.Outcome State Fault Refusal := .next (s.jumpTo target)

/-- R171: `if x[rop] != 0 then pc <- zext_32(dop)`, else `pc` keeps the sequential advance. -/
def execJnz (rt : Byte) (target : Half) (s : State) : Host.Outcome State Fault Refusal :=
  withTarget rt s fun t =>
    if branchTaken (s.getReg t) then .next (s.jumpTo target) else .next s

end Sys2Proof.Machine
end

