-- ==== Sys2Proof/Machine/LoadImmediate.lean ====
section
/-! DEFINITION. LOAD_IMMEDIATE_1 and LOAD_IMMEDIATE_2 (42_load_immediate.md). -/

namespace Sys2Proof.Machine

/-- R140: `x[rop] <- (x[rop] & 0xFFFF0000) | zext_32(dop)`. -/
def execLoadImmediate1 (rt : Byte) (imm : Half) (s : State) : Host.Outcome State Fault Refusal :=
  withTarget rt s fun t => .next (s.setReg t (withLowHalf (s.getReg t) imm))

/-- R141: `x[rop] <- (x[rop] & 0x0000FFFF) | (zext_32(dop) << 16)`. -/
def execLoadImmediate2 (rt : Byte) (imm : Half) (s : State) : Host.Outcome State Fault Refusal :=
  withTarget rt s fun t => .next (s.setReg t (withHighHalf (s.getReg t) imm))

end Sys2Proof.Machine
end

