-- ==== Sys2Proof/Machine/LoadStore.lean ====
section
/-! DEFINITION. LOAD_DIRECT, STORE_DIRECT, LOAD_INDIRECT, STORE_INDIRECT (43_load_store.md). Registers are read
first, then memory is accessed in the order the rule lists, then the one result is written (40_cycle.md R116). Each body
is written under any parameters (10_state.md R35); the meaning is the body at the default ones (log 20). -/

namespace Sys2Proof.Machine

/-- R150: `x[rop] <- LoadW(zext_32(dop))`. -/
def execLoadDirectWith (c : Config) (rt : Byte) (addr : Half) (s : State) : Host.Outcome State Fault Refusal :=
  withTarget rt s fun t =>
    andThen (loadW c (directAddress addr) s) fun (v, s') => .next (s'.setReg t v)

/-- R150. -/
def execLoadDirect (rt : Byte) (addr : Half) (s : State) : Host.Outcome State Fault Refusal :=
  execLoadDirectWith Config.default rt addr s

/-- R151: `StoreW(zext_32(dop), x[rop])`. -/
def execStoreDirectWith (c : Config) (rt : Byte) (addr : Half) (s : State) : Host.Outcome State Fault Refusal :=
  withTarget rt s fun t => storeW c (directAddress addr) (s.getReg t) s

/-- R151. -/
def execStoreDirect (rt : Byte) (addr : Half) (s : State) : Host.Outcome State Fault Refusal :=
  execStoreDirectWith Config.default rt addr s

/-- R152: `ptr <- LoadW(zext_32(dop))`, then `x[rop] <- LoadW(ptr)`. -/
def execLoadIndirectWith (c : Config) (rt : Byte) (cell : Half) (s : State) : Host.Outcome State Fault Refusal :=
  withTarget rt s fun t =>
    andThen (loadPointer c cell s) fun (ptr, s') =>
      andThen (loadW c ptr s') fun (v, s'') => .next (s''.setReg t v)

/-- R152. -/
def execLoadIndirect (rt : Byte) (cell : Half) (s : State) : Host.Outcome State Fault Refusal :=
  execLoadIndirectWith Config.default rt cell s

/-- R153: `ptr <- LoadW(zext_32(dop))`, then `StoreW(ptr, x[rop])`. -/
def execStoreIndirectWith (c : Config) (rt : Byte) (cell : Half) (s : State) : Host.Outcome State Fault Refusal :=
  withTarget rt s fun t =>
    andThen (loadPointer c cell s) fun (ptr, s') => storeW c ptr (s.getReg t) s'

/-- R153. -/
def execStoreIndirect (rt : Byte) (cell : Half) (s : State) : Host.Outcome State Fault Refusal :=
  execStoreIndirectWith Config.default rt cell s

end Sys2Proof.Machine
end

