-- ==== Sys2Proof/Machine/RegisterAlu.lean ====
section
/-! DEFINITION. MOV, ADD, SUB, MUL (44_register_alu.md). Both operands are read before the target is written,
so a source that is also the target gives its old value (40_cycle.md R116). -/

namespace Sys2Proof.Machine

/-- R161: `x[rop] <- x[dop & 0x07]`. -/
def execMov (rt : Byte) (rs : BitVec 3) (s : State) : Host.Outcome State Fault Refusal :=
  withTarget rt s fun t => .next (s.setReg t (s.getReg (sourceReg rs)))

/-- R162: `x[rop] <- (x[rop] + x[dop & 0x07]) mod 2^32`. -/
def execAdd (rt : Byte) (rs : BitVec 3) (s : State) : Host.Outcome State Fault Refusal :=
  withTarget rt s fun t =>
    let a := s.getReg t
    let b := s.getReg (sourceReg rs)
    .next (writeAlu t a b (a + b) s)

/-- R163: `x[rop] <- (x[rop] - x[dop & 0x07]) mod 2^32`, target minus source. -/
def execSub (rt : Byte) (rs : BitVec 3) (s : State) : Host.Outcome State Fault Refusal :=
  withTarget rt s fun t =>
    let a := s.getReg t
    let b := s.getReg (sourceReg rs)
    .next (writeAlu t a b (a - b) s)

/-- R164: `x[rop] <- (x[rop] * x[dop & 0x07]) mod 2^32`, the low half of the exact product. -/
def execMul (rt : Byte) (rs : BitVec 3) (s : State) : Host.Outcome State Fault Refusal :=
  withTarget rt s fun t =>
    let a := s.getReg t
    let b := s.getReg (sourceReg rs)
    .next (writeAlu t a b (a * b) s)

end Sys2Proof.Machine
end

