-- ==== Sys2Proof/Machine/System.lean ====
section
/-! DEFINITION. HALT and NOP (41_halt_nop.md). A meaning is the body the step dispatches to, applied to the
state the fetch stage leaves (40_cycle.md R110). -/

namespace Sys2Proof.Machine

/-- R130: no register or memory effect and no latch. That the step reports halted = true is read from
`ir` afterwards (`State.halted`, R117; log 13). -/
def execHalt (s : State) : Host.Outcome State Fault Refusal := .next s

/-- R131: no effect. -/
def execNop (s : State) : Host.Outcome State Fault Refusal := .next s

end Sys2Proof.Machine
end

