-- ==== Sys2Proof/Machine/Bodies.lean ====
section
/-! DEFINITION. The body of every instruction under any parameters (10_state.md R35): the parameters reach the four
that access memory and no other. At the default parameters it is `exec` (log 20). -/

namespace Sys2Proof.Machine

/-- The dispatch of R115 under the parameters `c`. -/
def execWith (c : Config) (i : Instr) (s : State) : Result State :=
  match i with
  | .halt => execHalt s
  | .nop => execNop s
  | .loadImmediate1 rt imm => execLoadImmediate1 rt imm s
  | .loadImmediate2 rt imm => execLoadImmediate2 rt imm s
  | .loadDirect rt addr => execLoadDirectWith c rt addr s
  | .storeDirect rt addr => execStoreDirectWith c rt addr s
  | .loadIndirect rt cell => execLoadIndirectWith c rt cell s
  | .storeIndirect rt cell => execStoreIndirectWith c rt cell s
  | .mov rt rs => execMov rt rs s
  | .add rt rs => execAdd rt rs s
  | .sub rt rs => execSub rt rs s
  | .mul rt rs => execMul rt rs s
  | .jmp target => execJmp target s
  | .jnz rt target => execJnz rt target s

end Sys2Proof.Machine
end

