-- ==== Sys2Proof/Machine/Cycle.lean ====
section
/-! DEFINITION. The engine every instruction runs in (40_cycle.md R110 to R117): fetch, decode, advance,
register-index check, dispatch. It takes the parameters and the
bodies as arguments; Machine/Step.lean gives it them. -/

namespace Sys2Proof.Machine

/-- The length of every instruction, in bytes (30_encoding.md R80). -/
def instructionBytes : Word := 4

/-- `pc <- (pc + 4) mod 2^32` (R113). The wrap at the top is UNVERIFIED (the spec's decision D4; log 4; unsafe). -/
def State.advancePc (s : State) : State := { s with pc := s.pc + instructionBytes }

/-- `ir <- w`, `rop <- ir[15:8]`, `dop <- ir[31:16]` (R111, R112). -/
def State.latchInstruction (s : State) (w : Word) : State :=
  { s with ir := w, rop := registerField w, dop := dataField w }

/-- The Control Unit's `fetch()`: the word at `pc`, the latches, and the advance, which is its last action
(R111 to R113). At an unfetchable `pc` it raises with nothing changed (R58, R186). -/
def fetch (c : Config) (s : State) : Result State :=
  andThen (loadW c s.pc s) fun (w, s') => .next (s'.latchInstruction w).advancePc

/-- Decode, register-index check and dispatch on the fetched word; an error here leaves the fetch's effects
(R112, R114, R115, R186). -/
def dispatchWith (m : OpcodeMap) (bodies : Instr → State → Result State) (s : State) : Result State :=
  match decodeWith m s.ir with
  | .instr i => bodies i s
  | .outOfRangeRegister field => raise (.outOfRangeRegister field) s
  | .unknownOpcode opcode => raise (.unknownOpcode opcode) s

/-- One whole step (R110), under any parameters. -/
def cycle (c : Config) (bodies : Instr → State → Result State) (s : State) : Result State :=
  andThen (fetch c s) (dispatchWith c.opcodeMap bodies)

/-- The boolean a successful step returns: true exactly when the opcode executed was HALT (R8, R117), read from
the state that step leaves, whose `ir` holds the word it executed (R29; DESIGN CHOICE, safe; log 13). -/
def State.halted (m : OpcodeMap) (s : State) : Bool := opcodeField s.ir == m .HALT

end Sys2Proof.Machine
end

