-- ==== Sys2Proof/Machine/Dispatch.lean ====
section
/-! DEFINITION. The dispatch of an instruction to its body (40_cycle.md R115). -/

namespace Sys2Proof.Machine

def exec (i : Instr) (s : State) : Host.Outcome State Fault Refusal :=
  match i with
  | .halt => Sys2Proof.Machine.execHalt s
  | .nop => Sys2Proof.Machine.execNop s
  | .loadImmediate1 rt imm => Sys2Proof.Machine.execLoadImmediate1 rt imm s
  | .loadImmediate2 rt imm => Sys2Proof.Machine.execLoadImmediate2 rt imm s
  | .loadDirect rt addr => Sys2Proof.Machine.execLoadDirect rt addr s
  | .storeDirect rt addr => Sys2Proof.Machine.execStoreDirect rt addr s
  | .loadIndirect rt cell => Sys2Proof.Machine.execLoadIndirect rt cell s
  | .storeIndirect rt cell => Sys2Proof.Machine.execStoreIndirect rt cell s
  | .mov rt rs => Sys2Proof.Machine.execMov rt rs s
  | .add rt rs => Sys2Proof.Machine.execAdd rt rs s
  | .sub rt rs => Sys2Proof.Machine.execSub rt rs s
  | .mul rt rs => Sys2Proof.Machine.execMul rt rs s
  | .jmp target => Sys2Proof.Machine.execJmp target s
  | .jnz rt target => Sys2Proof.Machine.execJnz rt target s

end Sys2Proof.Machine
end

