-- ==== Sys2Proof/Machine/Step.lean ====
section
/-! DEFINITION. The step of the machine (40_cycle.md R110), and the placing of a word where it fetches. -/

namespace Sys2Proof.Machine

/-- The step under any parameters: a function of the state and the parameters alone (R35, R119). -/
def stepWith (c : Config) (s : State) : Host.Outcome State Fault Refusal := cycle c (execWith c) s

/-- The step of this machine, at the default parameters, with the bodies `exec` dispatches to. -/
def step (s : State) : Host.Outcome State Fault Refusal := cycle Config.default exec s

/-- `s` with the table word `w` stored where `step` fetches its next instruction (log 14). -/
def State.withFetchWord (s : State) (nbits w : Nat) : State := s.placeInstruction (tableWord nbits w)

end Sys2Proof.Machine
end

