-- ==== Sys2Proof/Machine/Driver.lean ====
section
/-! DEFINITION. What the core offers its driver and loader, and the two protocols by which a driver stops
(60_exceptions.md R190, R191; 70_reset_and_hazards.md R203, R207, R208). Each operation is atomic, acts between steps and
takes the parameters of the machine it acts on; the driver has no operation that writes a general register, a flag, `sp`, `br` or a latch (DESIGN
CHOICE of the form, safe; log 16). `construct` is `State.construct` and `step()` is `stepResult`. -/

namespace Sys2Proof.Machine

/-! ## step() and its outcome (R8) -/

/-- The closed list of error kinds; names only, there is no numeric cause (R180). -/
inductive ErrorKind where
  | outOfRangeRegister
  | unknownOpcode
  | addressOverflow
  deriving DecidableEq, Repr

/-- The kind of an error (R180). -/
def Fault.kind : Fault → ErrorKind
  | .outOfRangeRegister _ _ => .outOfRangeRegister
  | .unknownOpcode _ _ => .unknownOpcode
  | .addressOverflow _ _ => .addressOverflow

/-- What an error reports: the register field, the opcode, or the address, read as a Word (R180). -/
def Fault.info : Fault → Word
  | .outOfRangeRegister field _ => field.setWidth 32
  | .unknownOpcode opcode _ => opcode.setWidth 32
  | .addressOverflow address _ => address

/-- `Ok(halted)` or `Err(kind, info)`, each with the state the step leaves (R8, R186; log 13). -/
inductive StepResult where
  | ok (halted : Bool) (s : State)
  | err (kind : ErrorKind) (info : Word) (after : State)
  | refused (r : Refusal)
  deriving DecidableEq, Repr

/-- The outcome the driver is handed. -/
def observe (m : OpcodeMap) : Host.Outcome State Fault Refusal → StepResult
  | .next s => .ok (s.halted m) s
  | .fault f => .err f.kind f.info f.after
  | .refused r => .refused r

/-- `step()` as the driver sees it (R190). -/
def stepResult (c : Config) (s : State) : StepResult := observe c.opcodeMap (stepWith c s)

/-! ## The program counter (R190) -/

/-- `get programCounter`. -/
def getPc (s : State) : Word := s.pc

/-- `set programCounter(v)`: any Word, nothing else changes. -/
def setPc (v : Word) (s : State) : State := { s with pc := v }

/-! ## Inspect (R190), all read-only -/

/-- `inspect registers`: R0..R7. -/
def inspectRegisters (s : State) : List Word := s.regs.toList

/-- `inspect registers`: `sp`, `br`, `mar`, `mbr`, `ir`. -/
def inspectScalars (s : State) : List Word := [s.sp.setWidth 32, s.br.setWidth 32, s.mar, s.mbr, s.ir]

/-- `inspect registers`: the decoded fields `rop`, `dop`. -/
def inspectFields (s : State) : Byte × Half := (s.rop, s.dop)

/-- `inspect flags`. -/
def inspectFlags (s : State) : Flags := s.flags

/-- `inspect memory`, one byte; `mar` and `mbr` are not touched. -/
def inspectByte (c : Config) (a : Word) (s : State) : Result Byte := memReadByte c a s

/-- `inspect memory`, one word; `mar` and `mbr` are not touched. -/
def inspectWord (c : Config) (a : Word) (s : State) : Result Word := memReadWord c a s

/-! ## The loader (R190, R203) -/

/-- The memory's `storeByte`. -/
def storeByte (c : Config) (a : Word) (b : Byte) (s : State) : Result State := memWriteByte c a b s

/-- The memory's `storeWord`. -/
def storeWord (c : Config) (a v : Word) (s : State) : Result State := memWriteWord c a v s

/-- "Copy a sequence of bytes into Memory starting at a caller-chosen address" (R203), each byte at the next address.
The address is a Word, so a sequence that runs past address 0xFFFFFFFF goes on at address 0: the spec states nothing for
the loader there (DESIGN CHOICE, unsafe; log 22). -/
def loadBytes (c : Config) (a : Word) : List Byte → State → Result State
  | [], s => .next s
  | b :: rest, s => andThen (storeByte c a b s) (loadBytes c (a + 1) rest)

/-! ## Runs and their end (R207, R208) -/

/-- How a driver's run ends. -/
inductive RunEnd where
  /-- The protocol saw a HALT. -/
  | halted (s : State)
  /-- `step` returned `Err` and the driver aborted: a fault, not a final state (R207). Also where PEEK's own check
  raised (log 23). -/
  | error (f : Fault)
  /-- The driver's own bound on the number of steps was reached (R208). -/
  | bound (s : State)
  /-- A step was refused; at the default parameters none is. -/
  | refused (r : Refusal)
  deriving DecidableEq, Repr

/-- PEEK's check before a step: `MemRead(pc, 1)` against `op(HALT)`, and no other byte (R207). Like every byte read it
raises where there is a cap and `pc` reaches it (20_memory.md R59). -/
def peeksHalt (c : Config) (s : State) : Result Bool :=
  andThen (memReadByte c s.pc s) fun opcode => .next (opcode == c.opcodeMap .HALT)

/-- PEEK's check, and `goOn` where it sees no HALT. A check that raises ends the run in that error: no rule says what a
driver does whose own read raises (DESIGN CHOICE, safe; log 23). -/
def peekThen (c : Config) (s : State) (goOn : RunEnd) : RunEnd :=
  match peeksHalt c s with
  | .next halt => if halt then .halted s else goOn
  | .fault f => .error f
  | .refused r => .refused r

/-- Protocol PEEK: check before each step, never execute the HALT (R207). At most `n` steps. -/
def runPeek (c : Config) : Nat → State → RunEnd
  | 0, s => peekThen c s (.bound s)
  | n + 1, s =>
    peekThen c s <|
      match stepWith c s with
      | .next t => runPeek c n t
      | .fault f => .error f
      | .refused r => .refused r

/-- Protocol SIGNAL: step, and stop when the step returns `Ok(true)` (R207). At most `n` steps. -/
def runSignal (c : Config) : Nat → State → RunEnd
  | 0, s => .bound s
  | n + 1, s =>
    match stepWith c s with
    | .next t => if t.halted c.opcodeMap then .halted t else runSignal c n t
    | .fault f => .error f
    | .refused r => .refused r

/-- A driver's run under its protocol, a parameter (R207; log 21). -/
def runDriver (c : Config) (n : Nat) (s : State) : RunEnd :=
  match c.haltProtocol with
  | .peek => runPeek c n s
  | .signal => runSignal c n s

/-- The run of this machine's driver. -/
def run (n : Nat) (s : State) : RunEnd := runDriver Config.default n s

end Sys2Proof.Machine
end

