-- ==== Sys2Proof/Safety.lean ====
section
/-! DEFINITION. The terms claims are stated in: the invariant of the core, its reachable states, a safe run, what
an instruction leaves unchanged, and the state the fetch leaves. -/

namespace Sys2Proof.Machine

/-! ## The invariant and the reachable states -/

/-- What every state of a run satisfies: the memory is in canonical form (log 12), every flag is false (10_state.md
R25), `sp` and `br` are 0 (R26), and the field latches agree with the instruction register (R30). -/
structure State.Inv (s : State) : Prop where
  memory : s.mem.wf
  flags : s.flags = Flags.clear
  sp : s.sp = 0
  br : s.br = 0
  rop : s.rop = registerField s.ir
  dop : s.dop = dataField s.ir

/-- The states before a run: the core constructed on a memory, bytes and words loaded, the program counter set, in any
order (60_exceptions.md R190, R191, 70_reset_and_hazards.md R203). Loading before construct is construct on the memory
so loaded (R202). -/
inductive BeforeRun (c : Config) : State → Prop where
  | construct (memory : Memory) (h : memory.wf) : BeforeRun c (State.construct memory)
  | load (a : Word) (bytes : List Byte) {s t : State} (hs : BeforeRun c s)
      (h : loadBytes c a bytes s = .next t) : BeforeRun c t
  | storeWord (a v : Word) {s t : State} (hs : BeforeRun c s) (h : storeWord c a v s = .next t) : BeforeRun c t
  | setPc (v : Word) {s : State} (hs : BeforeRun c s) : BeforeRun c (setPc v s)

/-- The states a driver can bring the core into: those before a run, and from there by stepping, setting the program
counter, and going on after an error (R187, R191). The host writes no memory once the run has begun (R191, entry U15 of
93_implementation_defined.md; log 16). -/
inductive Reachable (c : Config) : State → Prop where
  | start {s : State} (hs : BeforeRun c s) : Reachable c s
  | setPc (v : Word) {s : State} (hs : Reachable c s) : Reachable c (setPc v s)
  | step {s t : State} (hs : Reachable c s) (h : stepWith c s = .next t) : Reachable c t
  | goOn {s : State} {f : Fault} (hs : Reachable c s) (h : stepWith c s = .fault f) : Reachable c f.after

/-! ## Runs, step by step -/

/-- `t` is the state after `n` steps from `s`, none of which ended in an error. -/
def StepsTo (c : Config) : Nat → State → State → Prop
  | 0, s, t => t = s
  | n + 1, s, t => ∃ u, stepWith c s = .next u ∧ StepsTo c n u t

/-- A run of `n` steps that no error ends (70_reset_and_hazards.md R207: an error is a fault, not a final state). -/
def SafeFor (c : Config) (n : Nat) (s : State) : Prop := ∃ t, StepsTo c n s t

/-! ## Frames: what stays as it was, from `s` to `t` -/

/-- Every general register. -/
def SameRegs (s t : State) : Prop := ∀ r : Fin 8, t.getReg r = s.getReg r

/-- Every general register but `r`. -/
def SameRegsBut (r : Fin 8) (s t : State) : Prop := ∀ q : Fin 8, q ≠ r → t.getReg q = s.getReg q

/-- Every byte of memory. -/
def SameMemory (s t : State) : Prop := ∀ b : Nat, t.mem.readByte b = s.mem.readByte b

/-- Every byte of memory but the four of the word at `a`. -/
def SameMemoryBut (a : Word) (s t : State) : Prop :=
  ∀ b : Nat, b ≠ a.toNat → b ≠ (a + 1).toNat → b ≠ (a + 2).toNat → b ≠ (a + 3).toNat →
    t.mem.readByte b = s.mem.readByte b

/-- The six flags, `sp` and `br`: what no instruction writes (10_state.md R25, R26). -/
def SameInert (s t : State) : Prop := t.flags = s.flags ∧ t.sp = s.sp ∧ t.br = s.br

/-- `ir`, `rop`, `dop`: what only the fetch writes (R29, R30). -/
def SameFetchLatches (s t : State) : Prop := t.ir = s.ir ∧ t.rop = s.rop ∧ t.dop = s.dop

/-- `mar`, `mbr`: what only a word access writes (R27, R28). -/
def SameAccessLatches (s t : State) : Prop := t.mar = s.mar ∧ t.mbr = s.mbr

/-- All but the general registers, memory and `pc`: the frame of a body that makes no memory access. -/
def SameRest (s t : State) : Prop := SameInert s t ∧ SameFetchLatches s t ∧ SameAccessLatches s t

/-- The frame of a body that makes no memory access and writes only register `r`. -/
def OnlyRegChanged (r : Fin 8) (s t : State) : Prop :=
  SameRegsBut r s t ∧ t.pc = s.pc ∧ SameRest s t ∧ SameMemory s t

/-! ## Word accesses and the fetch -/

/-- All four bytes of the word at `a` exist (20_memory.md R58, R59). -/
def Reaches (c : Config) (a : Word) : Prop :=
  (a.toNat ≤ 0xFFFFFFFC ∨ c.pastTop = .wrap) ∧ ∀ cap, c.addrCap = some cap → a.toNat + 3 < cap

/-- A word access at `a` goes on: its bytes exist, and the address has the alignment the machine requires (R57). At the
default parameters that is `a.toNat ≤ 0xFFFFFFFC`. -/
def Accepts (c : Config) (a : Word) : Prop := Reaches c a ∧ c.alignment ∣ a.toNat

/-- The word the next fetch reads. -/
def State.fetchWord (s : State) : Word := s.mem.readWord s.pc

/-- A word can be fetched at `pc`. -/
def State.fetchable (c : Config) (s : State) : Prop := Accepts c s.pc

/-- None of the first `n` steps executes HALT (R117, R207). -/
def HaltFree (c : Config) (n : Nat) (s : State) : Prop :=
  ∀ k < n, ∀ u, StepsTo c k s u → opcodeField u.fetchWord ≠ c.opcodeMap .HALT

/-- The state a completed fetch stage leaves, field by field (40_cycle.md R110 to R113). The values of `mar` and `mbr`
rest on the spec's decision D10 (log 10), the wrap of `pc` on D4 (log 4). -/
def State.afterFetch (c : Config) (s : State) : State :=
  { s with
    mar := c.marAfter s.pc s.fetchWord
    mbr := c.mbrAfter s.pc s.fetchWord
    ir := s.fetchWord
    rop := registerField s.fetchWord
    dop := dataField s.fetchWord
    pc := BitVec.ofNat 32 ((s.pc.toNat + 4) % 2 ^ 32) }

end Sys2Proof.Machine
end

