-- ==== Sys2Proof/Certificates/Slice0/Obligations.lean ====
section
/-! DEFINITION. The statements for the provers. `m` is any opcode map: the rules depend only on the names of the
operations (30_encoding.md R86), so a statement that names no concrete byte quantifies over it. `c` is any parameters
(00_scope.md R5, 10_state.md R35; log 20); `exec`, `step`, `decode` and `Config.default` are the machine at the
spec's own. -/

open Sys2Proof Sys2Proof.Machine

/-! ## Encoding and decoding -/

/-- Rests on the spec's derived rule R90 and its decision D15 (log 17): decoding what the encoder writes gives the
instruction back, every operand at every value, under every injective opcode map. -/
def Obligations.DecodeEncodeRoundTrip : Prop :=
  ∀ m : OpcodeMap, Function.Injective m →
    ∀ i : Instr, i.wf = true → decodeWith m (encodeWith m i) = .instr i

/-- R89, R90 (decisions D7, D14; log 7): a word that decodes decodes to a well-formed instruction, and writing that
instruction again gives the word with its ignored bits, and only those, cleared. -/
def Obligations.ReencodingKeepsExactlyTheUsedBits : Prop :=
  ∀ (m : OpcodeMap) (w : Word) (i : Instr), decodeWith m w = .instr i →
    i.wf = true ∧ encodeWith m i = w &&& i.usedBits

/-- R90, the decoder as a total function: which of the three verdicts a word gets (decisions D6, D8; logs 6, 8). -/
def Obligations.DecoderVerdicts : Prop :=
  ∀ (m : OpcodeMap) (w : Word),
    (7 < (registerField w).toNat → decodeWith m w = .outOfRangeRegister (registerField w)) ∧
    ((registerField w).toNat ≤ 7 → (∀ k, m k ≠ opcodeField w) → decodeWith m w = .unknownOpcode (opcodeField w)) ∧
    (Function.Injective m → (registerField w).toNat ≤ 7 → ∀ k, m k = opcodeField w →
      ∃ i, decodeWith m w = .instr i ∧ i.mnemonic = k ∧
        (∀ rt, i.targetField = some rt → rt = registerField w))

/-- R84 with R90 and R160 (decisions D6, D7; logs 6, 7): which operands each operation takes from the two fields of a
word with a valid register field, under every injective opcode map. -/
def Obligations.OperandsOfEachInstruction : Prop :=
  ∀ (m : OpcodeMap), Function.Injective m → ∀ w : Word, (registerField w).toNat ≤ 7 →
    let r := registerField w
    let d := dataField w
    let s : BitVec 3 := d.extractLsb' 0 3
    (opcodeField w = m .HALT → decodeWith m w = .instr .halt) ∧
    (opcodeField w = m .NOP → decodeWith m w = .instr .nop) ∧
    (opcodeField w = m .LOAD_IMMEDIATE_1 → decodeWith m w = .instr (.loadImmediate1 r d)) ∧
    (opcodeField w = m .LOAD_IMMEDIATE_2 → decodeWith m w = .instr (.loadImmediate2 r d)) ∧
    (opcodeField w = m .LOAD_DIRECT → decodeWith m w = .instr (.loadDirect r d)) ∧
    (opcodeField w = m .STORE_DIRECT → decodeWith m w = .instr (.storeDirect r d)) ∧
    (opcodeField w = m .LOAD_INDIRECT → decodeWith m w = .instr (.loadIndirect r d)) ∧
    (opcodeField w = m .STORE_INDIRECT → decodeWith m w = .instr (.storeIndirect r d)) ∧
    (opcodeField w = m .MOV → decodeWith m w = .instr (.mov r s)) ∧
    (opcodeField w = m .ADD → decodeWith m w = .instr (.add r s)) ∧
    (opcodeField w = m .SUB → decodeWith m w = .instr (.sub r s)) ∧
    (opcodeField w = m .MUL → decodeWith m w = .instr (.mul r s)) ∧
    (opcodeField w = m .JMP → decodeWith m w = .instr (.jmp d)) ∧
    (opcodeField w = m .JNZ → decodeWith m w = .instr (.jnz r d))

/-- R82 and R83: the four bytes of an instruction, the word they make, and the fields the decoder splits it into. -/
def Obligations.InstructionWordLayout : Prop :=
  (∀ (mem : Memory) (a : Word) (o r : Byte) (d : Half),
    mem.readByte a.toNat = o → mem.readByte (a + 1).toNat = r → mem.readByte (a + 2).toNat = d.extractLsb' 0 8 →
    mem.readByte (a + 3).toNat = d.extractLsb' 8 8 →
      mem.readWord a = o.setWidth 32 ||| (r.setWidth 32 <<< 8) ||| (d.setWidth 32 <<< 16) ∧
      opcodeField (mem.readWord a) = o ∧ registerField (mem.readWord a) = r ∧ dataField (mem.readWord a) = d) ∧
  (∀ w : Word,
    (opcodeField w).setWidth 32 = w &&& 0xFF#32 ∧
    (registerField w).setWidth 32 = (w >>> 8) &&& 0xFF#32 ∧
    (dataField w).setWidth 32 = w >>> 16)

/-- The default opcode map's words (decision D1; log 1), written out bit by bit from the encoding of R86: one or two
of every family. -/
def Obligations.SampleWordsDecode : Prop :=
  decode 0b00010010001101000000001100000000#32 = .instr .halt ∧
  decode 0b00000000000000000000000000000001#32 = .instr .nop ∧
  decode 0b10111110111011110000011000000010#32 = .instr (.loadImmediate1 6 0xBEEF) ∧
  decode 0b00000100000000110000000000000011#32 = .instr (.loadImmediate2 0 0x0403) ∧
  decode 0b00000001000000000000000100000100#32 = .instr (.loadDirect 1 0x0100) ∧
  decode 0b00000011000001000000001100000111#32 = .instr (.storeIndirect 3 0x0304) ∧
  decode 0b00000000000010010000000100001000#32 = .instr (.mov 1 1) ∧
  decode 0b00000000000000100000000000001010#32 = .instr (.sub 0 2) ∧
  decode 0b11111111111111110000011100001101#32 = .instr (.jnz 7 0xFFFF) ∧
  decode 0b00000000000000000000000100001110#32 = .unknownOpcode 0x0E ∧
  decode 0b00000000000000001111111111111111#32 = .outOfRangeRegister 0xFF

/-! ## Memory -/

/-- R51 and R52: byte accesses never fail; a read changes nothing (it answers a byte and no state); a write sets its
byte and changes nothing else. -/
def Obligations.ByteAccessesNeverFail : Prop :=
  ∀ (a : Word) (b : Byte) (s : State),
    memReadByte Config.default a s = .next (s.mem.readByte a.toNat) ∧
    ∃ t, memWriteByte Config.default a b s = .next t ∧ t.mem.readByte a.toNat = b ∧
      (∀ q : Nat, q ≠ a.toNat → t.mem.readByte q = s.mem.readByte q) ∧ t = { s with mem := t.mem }

/-- R55: a word stored is the word loaded, and the four bytes are its little-endian decomposition. -/
def Obligations.StoreWordThenLoadWord : Prop :=
  ∀ (a v : Word) (s : State), a.toNat ≤ 0xFFFFFFFC →
    ∃ t, memWriteWord Config.default a v s = .next t ∧ memReadWord Config.default a t = .next v ∧
      memReadByte Config.default a t = .next (v.extractLsb' 0 8) ∧
      memReadByte Config.default (a + 1) t = .next (v.extractLsb' 8 8) ∧
      memReadByte Config.default (a + 2) t = .next (v.extractLsb' 16 8) ∧
      memReadByte Config.default (a + 3) t = .next (v.extractLsb' 24 8)

/-- R54: a word write sets its four bytes and changes no other byte. -/
def Obligations.WordWriteChangesFourBytes : Prop :=
  ∀ (a v : Word) (s : State), a.toNat ≤ 0xFFFFFFFC →
    ∃ t, memWriteWord Config.default a v s = .next t ∧
      t.mem.readByte a.toNat = v.extractLsb' 0 8 ∧ t.mem.readByte (a.toNat + 1) = v.extractLsb' 8 8 ∧
      t.mem.readByte (a.toNat + 2) = v.extractLsb' 16 8 ∧ t.mem.readByte (a.toNat + 3) = v.extractLsb' 24 8 ∧
      SameMemoryBut a s t ∧ t = { s with mem := t.mem }

/-- R53: a word read combines its four bytes, the lowest address in the lowest bits. -/
def Obligations.WordReadCombinesFourBytes : Prop :=
  ∀ (a : Word) (s : State), a.toNat ≤ 0xFFFFFFFC →
    ∃ v, memReadWord Config.default a s = .next v ∧
      v = (s.mem.readByte a.toNat).setWidth 32 ||| ((s.mem.readByte (a.toNat + 1)).setWidth 32 <<< 8) |||
        ((s.mem.readByte (a.toNat + 2)).setWidth 32 <<< 16) ||| ((s.mem.readByte (a.toNat + 3)).setWidth 32 <<< 24) ∧
      v.extractLsb' 0 8 = s.mem.readByte a.toNat ∧ v.extractLsb' 8 8 = s.mem.readByte (a.toNat + 1) ∧
      v.extractLsb' 16 8 = s.mem.readByte (a.toNat + 2) ∧ v.extractLsb' 24 8 = s.mem.readByte (a.toNat + 3)

/-- R56's derived mixed-width sentence and R57 (decision D5; log 5): a word read `k` bytes above a stored word gives the
stored word's upper bytes in its low bits and the next `k` bytes of memory above them. -/
def Obligations.MisalignedReadOverlapsStoredWord : Prop :=
  ∀ (mem : Memory) (a v : Word) (k : Nat), k < 4 → a.toNat + k ≤ 0xFFFFFFFC → ∀ j < 4,
    (((mem.writeWord a v).readWord (a + BitVec.ofNat 32 k)).extractLsb' (8 * j) 8 : Byte) =
      if j + k < 4 then v.extractLsb' (8 * (j + k)) 8 else mem.readByte (a.toNat + k + j)

/-- The canonical form (the model's choice, log 12): memories that read alike at every address are the same data. -/
def Obligations.EqualReadsAreEqualMemories : Prop :=
  ∀ m n : Memory, m.wf → n.wf → (∀ a, m.readByte a = n.readByte a) → m = n

/-- R58 and R60 (decisions D3, D10; logs 3, 10): the core's word accesses latch their address and word, and above the
last word of memory raise with nothing changed. -/
def Obligations.CoreWordAccessLatchesOrRaises : Prop :=
  ∀ (a v : Word) (s : State),
    (a.toNat ≤ 0xFFFFFFFC →
      loadW Config.default a s = .next (s.mem.readWord a, { s with mar := a, mbr := s.mem.readWord a }) ∧
      ∃ t, storeW Config.default a v s = .next t ∧ t.mem.readWord a = v ∧ SameMemoryBut a s t ∧
        t = { s with mar := a, mbr := v, mem := t.mem }) ∧
    (0xFFFFFFFC < a.toNat →
      loadW Config.default a s = .fault (.addressOverflow a s) ∧
      storeW Config.default a v s = .fault (.addressOverflow a s))

/-- R5 (the values it marks `decision`: D3, D5, D10; logs 3, 5, 10, 20): the parameters decide a word access. Where all
four bytes exist and the alignment is met it goes on, with the latches the parameters give; where a byte does not exist
it raises and changes nothing; where only the alignment is missed it has no meaning. -/
def Obligations.ParametersDecideWordAccesses : Prop :=
  ∀ (c : Config) (a v : Word) (s : State),
    let w := s.mem.readWord a
    let missing := (0xFFFFFFFC < a.toNat ∧ c.pastTop = .raise) ∨ ∃ cap, c.addrCap = some cap ∧ cap ≤ a.toNat + 3
    (¬ missing → c.alignment ∣ a.toNat →
      loadW c a s = .next (w, { s with mar := c.marAfter a w, mbr := c.mbrAfter a w }) ∧
      ∃ t, storeW c a v s = .next t ∧ t.mem.readWord a = v ∧ SameMemoryBut a s t ∧
        t = { s with mar := c.marAfter a v, mbr := c.mbrAfter a v, mem := t.mem }) ∧
    (missing → loadW c a s = .fault (.addressOverflow a s) ∧ storeW c a v s = .fault (.addressOverflow a s)) ∧
    (¬ missing → ¬ c.alignment ∣ a.toNat →
      loadW c a s = .refused (.misalignedAccess a) ∧ storeW c a v s = .refused (.misalignedAccess a))

/-- R59 (decision D2; log 2): under a cap `cap` a byte access at or above it, and a word access whose last byte is at or
above it, raises before any change; below it, it answers what it answers without a cap. -/
def Obligations.AddressCapBoundsAccesses : Prop :=
  ∀ (c : Config) (cap : Nat) (a v : Word) (b : Byte) (s : State),
    let capped := { c with addrCap := some cap }
    let free := { c with addrCap := none }
    (cap ≤ a.toNat →
      memReadByte capped a s = .fault (.addressOverflow a s) ∧
      memWriteByte capped a b s = .fault (.addressOverflow a s)) ∧
    (a.toNat < cap →
      memReadByte capped a s = memReadByte free a s ∧ memWriteByte capped a b s = memWriteByte free a b s) ∧
    (cap ≤ a.toNat + 3 →
      memReadWord capped a s = .fault (.addressOverflow a s) ∧
      memWriteWord capped a v s = .fault (.addressOverflow a s)) ∧
    (a.toNat + 3 < cap →
      memReadWord capped a s = memReadWord free a s ∧ memWriteWord capped a v s = memWriteWord free a v s)

/-- R59 and R119 (decision D2; log 2): under a cap the step itself raises: at the fetch with nothing changed, at a direct
access with nothing of it done, at an indirect one with only the pointer's latches. What a failing access leaves is R186,
R152 and R153, decision D9, and where that state stands the model's choice (log 9). -/
def Obligations.AddressCapBoundsTheStep : Prop :=
  ∀ (c : Config) (cap : Nat), c.addrCap = some cap →
    (∀ s : State, cap ≤ s.pc.toNat + 3 → stepWith c s = .fault (.addressOverflow s.pc s)) ∧
    ∀ (s : State) (rt : Byte) (d : Half), rt.toNat < 8 →
      (cap ≤ d.toNat + 3 → ∀ i ∈ [Instr.loadDirect rt d, .storeDirect rt d, .loadIndirect rt d, .storeIndirect rt d],
        execWith c i s = .fault (.addressOverflow (d.setWidth 32) s)) ∧
      (d.toNat + 3 < cap → c.alignment ∣ d.toNat → cap ≤ (indirectAddress d s).toNat + 3 →
        ∀ i ∈ [Instr.loadIndirect rt d, .storeIndirect rt d],
          execWith c i s = .fault (.addressOverflow (indirectAddress d s)
            { s with
              mar := c.marAfter (d.setWidth 32) (indirectAddress d s)
              mbr := c.mbrAfter (d.setWidth 32) (indirectAddress d s) }))

/-! ## Reset and the driver -/

/-- R34's table (the zeros of `sp`, `br` and the latches are the spec's decision D11; log 11). -/
def Obligations.ConstructGivesTheResetTable : Prop :=
  ∀ mem : Memory,
    (∀ r : Fin 8, (State.construct mem).getReg r = 0) ∧ (State.construct mem).pc = 0 ∧
    (State.construct mem).flags = ⟨false, false, false, false, false, false⟩ ∧
    (State.construct mem).sp = 0 ∧ (State.construct mem).br = 0 ∧
    (State.construct mem).mar = 0 ∧ (State.construct mem).mbr = 0 ∧ (State.construct mem).ir = 0 ∧
    (State.construct mem).rop = 0 ∧ (State.construct mem).dop = 0 ∧ (State.construct mem).mem = mem ∧
    State.reset = State.construct []

/-- R202: construct writes no memory; a memory nothing has written reads 0 everywhere; and loading bytes and constructing
the core give the same start state in either order. With R52, R190, R203: loading them leaves each byte at its address
(stated where they do not run past the top), every other byte and everything but memory as it was, and with no cap it
goes on. That it goes on past the top too is the model's choice (log 22). -/
def Obligations.ConstructAndLoadCommute : Prop :=
  (∀ mem : Memory, (State.construct mem).mem = mem) ∧
  (∀ a : Word, memReadByte Config.default a State.reset = .next 0) ∧
  (∀ (c : Config) (a : Word) (bytes : List Byte) (s u : State), loadBytes c a bytes s = .next u →
    loadBytes c a bytes (State.construct s.mem) = .next (State.construct u.mem) ∧
    u = { s with mem := u.mem } ∧
    (a.toNat + bytes.length ≤ 2 ^ 32 →
      (∀ (k : Nat) (hk : k < bytes.length), u.mem.readByte (a.toNat + k) = bytes[k]) ∧
      ∀ q : Nat, (q < a.toNat ∨ a.toNat + bytes.length ≤ q) → u.mem.readByte q = s.mem.readByte q)) ∧
  (∀ (a : Word) (bytes : List Byte) (s : State), ∃ u, loadBytes Config.default a bytes s = .next u)

/-- R20 and R21: a register reads what was last written to it, R0 included; the others are unchanged. -/
def Obligations.RegistersReadWhatWasWritten : Prop :=
  ∀ (s : State) (r q : Fin 8) (v : Word),
    ((s.setReg r v).getReg q = if q = r then v else s.getReg q) ∧ s.setReg r v = { s with regs := (s.setReg r v).regs }

/-- R190 (decision D18; log 16): setting the program counter changes nothing else, and inspecting memory neither
changes a byte nor touches `mar` or `mbr`: it answers the value the memory holds. -/
def Obligations.DriverOperations : Prop :=
  (∀ (v : Word) (s : State), getPc (setPc v s) = v ∧ setPc v s = { s with pc := v }) ∧
  (∀ (a : Word) (s : State), inspectByte Config.default a s = .next (s.mem.readByte a.toNat)) ∧
  (∀ (a : Word) (s : State), a.toNat ≤ 0xFFFFFFFC → inspectWord Config.default a s = .next (s.mem.readWord a))

/-- R203 with R82: the loader puts an instruction's four bytes in memory so that the word read there is its encoding,
and touches nothing else (the encoder's choices: log 17). -/
def Obligations.LoaderPlacesTheEncoding : Prop :=
  ∀ (i : Instr) (a : Word) (s : State), a.toNat ≤ 0xFFFFFFFC →
    ∃ t, loadBytes Config.default a (encodeBytes i) s = .next t ∧ inspectWord Config.default a t = .next (encode i) ∧
      SameMemoryBut a s t ∧ t = { s with mem := t.mem }

/-! ## The instructions -/

/-- R130: HALT has no effect of its own, and a step that executes one reports halted = true and leaves the fetch's
effects alone (`mar` and `mbr` among them, as the parameters give them: by default the fetch's address and word, the
spec's decision D10; log 10). -/
def Obligations.HaltHasNoEffectAndReportsTrue : Prop :=
  (∀ s : State, exec .halt s = .next s) ∧
  (∀ (c : Config) (s : State), s.fetchable c →
    opcodeField s.fetchWord = c.opcodeMap .HALT → (registerField s.fetchWord).toNat ≤ 7 →
      ∃ t, stepResult c s = .ok true t ∧ SameRegs s t ∧ SameMemory s t ∧ SameInert s t ∧
        t.mar = c.marAfter s.pc s.fetchWord ∧ t.mbr = c.mbrAfter s.pc s.fetchWord ∧ t.ir = s.fetchWord ∧
        t.rop = registerField s.fetchWord ∧ t.dop = dataField s.fetchWord ∧ t.pc.toNat = (s.pc.toNat + 4) % 2 ^ 32)

/-- R131: NOP has no effect of its own, and a step that executes one reports halted = false and leaves the fetch's
effects alone (`mar` and `mbr` among them, as the parameters give them: by default the fetch's address and word, the
spec's decision D10; log 10). -/
def Obligations.NopHasNoEffectAndReportsFalse : Prop :=
  (∀ s : State, exec .nop s = .next s) ∧
  (∀ (c : Config) (s : State), Function.Injective c.opcodeMap → s.fetchable c →
    opcodeField s.fetchWord = c.opcodeMap .NOP → (registerField s.fetchWord).toNat ≤ 7 →
      ∃ t, stepResult c s = .ok false t ∧ SameRegs s t ∧ SameMemory s t ∧ SameInert s t ∧
        t.mar = c.marAfter s.pc s.fetchWord ∧ t.mbr = c.mbrAfter s.pc s.fetchWord ∧ t.ir = s.fetchWord ∧
        t.rop = registerField s.fetchWord ∧ t.dop = dataField s.fetchWord ∧ t.pc.toNat = (s.pc.toNat + 4) % 2 ^ 32)

/-- R140: the encoding, under any opcode map; and the body: the low half is replaced, the high half kept, nothing is
sign-extended, nothing else changes. -/
def Obligations.LoadImmediate1SetsLowHalf : Prop :=
  ∀ (rt : Byte) (imm : Half) (s : State) (h : rt.toNat < 8),
    (∀ m : OpcodeMap, encodeWith m (.loadImmediate1 rt imm) =
      (m .LOAD_IMMEDIATE_1).setWidth 32 ||| (rt.setWidth 32 <<< 8) ||| (imm.setWidth 32 <<< 16)) ∧
    ∃ t, exec (.loadImmediate1 rt imm) s = .next t ∧
      t.getReg ⟨rt.toNat, h⟩ = (s.getReg ⟨rt.toNat, h⟩ &&& 0xFFFF0000#32) ||| imm.setWidth 32 ∧
      (t.getReg ⟨rt.toNat, h⟩).extractLsb' 0 16 = imm ∧
      (t.getReg ⟨rt.toNat, h⟩).extractLsb' 16 16 = (s.getReg ⟨rt.toNat, h⟩).extractLsb' 16 16 ∧
      OnlyRegChanged ⟨rt.toNat, h⟩ s t

/-- R141: the encoding; and the body: the high half is replaced, the low half kept, nothing else changes. -/
def Obligations.LoadImmediate2SetsHighHalf : Prop :=
  ∀ (rt : Byte) (imm : Half) (s : State) (h : rt.toNat < 8),
    (∀ m : OpcodeMap, encodeWith m (.loadImmediate2 rt imm) =
      (m .LOAD_IMMEDIATE_2).setWidth 32 ||| (rt.setWidth 32 <<< 8) ||| (imm.setWidth 32 <<< 16)) ∧
    ∃ t, exec (.loadImmediate2 rt imm) s = .next t ∧
      t.getReg ⟨rt.toNat, h⟩ = (s.getReg ⟨rt.toNat, h⟩ &&& 0x0000FFFF#32) ||| (imm.setWidth 32 <<< 16) ∧
      (t.getReg ⟨rt.toNat, h⟩).extractLsb' 16 16 = imm ∧
      (t.getReg ⟨rt.toNat, h⟩).extractLsb' 0 16 = (s.getReg ⟨rt.toNat, h⟩).extractLsb' 0 16 ∧
      OnlyRegChanged ⟨rt.toNat, h⟩ s t

/-- R142: the two loads in either order give `lo16 | (hi16 << 16)` whatever the register held (the opposite order is
the spec's derived sentence). -/
def Obligations.ImmediateLoadsCompose : Prop :=
  ∀ (rt : Byte) (lo hi : Half) (s : State) (h : rt.toNat < 8),
    (∃ t u, exec (.loadImmediate1 rt lo) s = .next t ∧ exec (.loadImmediate2 rt hi) t = .next u ∧
      u.getReg ⟨rt.toNat, h⟩ = lo.setWidth 32 ||| (hi.setWidth 32 <<< 16)) ∧
    (∃ t u, exec (.loadImmediate2 rt hi) s = .next t ∧ exec (.loadImmediate1 rt lo) t = .next u ∧
      u.getReg ⟨rt.toNat, h⟩ = lo.setWidth 32 ||| (hi.setWidth 32 <<< 16))

/-- R150: the target takes the word at the address; nothing else changes but the access latches (their values by the
spec's decision D10; log 10). -/
def Obligations.LoadDirectLoadsTheWord : Prop :=
  ∀ (rt : Byte) (addr : Half) (s : State) (h : rt.toNat < 8),
    ∃ t, exec (.loadDirect rt addr) s = .next t ∧
      t.getReg ⟨rt.toNat, h⟩ = s.mem.readWord (addr.setWidth 32) ∧
      t.mar = addr.setWidth 32 ∧ t.mbr = s.mem.readWord (addr.setWidth 32) ∧
      SameRegsBut ⟨rt.toNat, h⟩ s t ∧ t.pc = s.pc ∧ SameInert s t ∧ SameFetchLatches s t ∧ SameMemory s t

/-- R151: the word at the address becomes the register's value; no register and no other byte changes (the latches'
values by the spec's decision D10; log 10). -/
def Obligations.StoreDirectStoresTheRegister : Prop :=
  ∀ (rt : Byte) (addr : Half) (s : State) (h : rt.toNat < 8),
    ∃ t, exec (.storeDirect rt addr) s = .next t ∧
      t.mem.readWord (directAddress addr) = s.getReg ⟨rt.toNat, h⟩ ∧
      (directAddress addr).toNat = addr.toNat ∧ SameMemoryBut (directAddress addr) s t ∧
      t.mar = directAddress addr ∧ t.mbr = s.getReg ⟨rt.toNat, h⟩ ∧
      SameRegs s t ∧ t.pc = s.pc ∧ SameInert s t ∧ SameFetchLatches s t

/-- R152: the target takes the word at the address the pointer cell holds, where a word is there (the latches' values by
the spec's decision D10; log 10); `PointerPastTheTopFaults` says what happens otherwise. -/
def Obligations.LoadIndirectLoadsThroughThePointer : Prop :=
  ∀ (rt : Byte) (cell : Half) (s : State) (h : rt.toNat < 8),
    (s.mem.readWord (cell.setWidth 32)).toNat ≤ 0xFFFFFFFC →
    ∃ t, exec (.loadIndirect rt cell) s = .next t ∧
      t.getReg ⟨rt.toNat, h⟩ = s.mem.readWord (s.mem.readWord (cell.setWidth 32)) ∧
      t.mar = s.mem.readWord (cell.setWidth 32) ∧ t.mbr = s.mem.readWord (s.mem.readWord (cell.setWidth 32)) ∧
      SameRegsBut ⟨rt.toNat, h⟩ s t ∧ t.pc = s.pc ∧ SameInert s t ∧ SameFetchLatches s t ∧ SameMemory s t

/-- R153: the word at the address the pointer cell held before the store becomes the register's value; no register and
no other byte changes (the latches' values by the spec's decision D10; log 10). -/
def Obligations.StoreIndirectStoresThroughThePointer : Prop :=
  ∀ (rt : Byte) (cell : Half) (s : State) (h : rt.toNat < 8),
    (indirectAddress cell s).toNat ≤ 0xFFFFFFFC →
    indirectAddress cell s = s.mem.readWord (cell.setWidth 32) ∧
    ∃ t, exec (.storeIndirect rt cell) s = .next t ∧
      t.mem.readWord (indirectAddress cell s) = s.getReg ⟨rt.toNat, h⟩ ∧
      SameMemoryBut (indirectAddress cell s) s t ∧
      t.mar = indirectAddress cell s ∧ t.mbr = s.getReg ⟨rt.toNat, h⟩ ∧
      SameRegs s t ∧ t.pc = s.pc ∧ SameInert s t ∧ SameFetchLatches s t

/-- R152, R153 and R186 (decisions D3, D9; logs 3, 9): a pointer past the last word of memory raises AddressOverflow, no
register and no byte written, the pointer read's latches kept. -/
def Obligations.PointerPastTheTopFaults : Prop :=
  ∀ (rt : Byte) (cell : Half) (s : State), rt.toNat < 8 →
    0xFFFFFFFC < (s.mem.readWord (cell.setWidth 32)).toNat →
    exec (.loadIndirect rt cell) s =
      .fault (.addressOverflow (s.mem.readWord (cell.setWidth 32))
        { s with mar := cell.setWidth 32, mbr := s.mem.readWord (cell.setWidth 32) }) ∧
    exec (.storeIndirect rt cell) s =
      .fault (.addressOverflow (s.mem.readWord (cell.setWidth 32))
        { s with mar := cell.setWidth 32, mbr := s.mem.readWord (cell.setWidth 32) })

/-- R161: the encoding; and the body: the target takes all 32 bits of the source; nothing else changes. -/
def Obligations.MovCopiesTheSource : Prop :=
  ∀ (rt : Byte) (rs : BitVec 3) (s : State) (h : rt.toNat < 8),
    (∀ m : OpcodeMap, encodeWith m (.mov rt rs) =
      (m .MOV).setWidth 32 ||| (rt.setWidth 32 <<< 8) ||| (rs.setWidth 32 <<< 16)) ∧
    ∃ t, exec (.mov rt rs) s = .next t ∧ t.getReg ⟨rt.toNat, h⟩ = s.getReg ⟨rs.toNat, rs.isLt⟩ ∧
      OnlyRegChanged ⟨rt.toNat, h⟩ s t

/-- R162: the encoding; and the body: the sum modulo 2^32 of the values both registers held; no flag, nothing else
changes. -/
def Obligations.AddIsModularSum : Prop :=
  ∀ (rt : Byte) (rs : BitVec 3) (s : State) (h : rt.toNat < 8),
    (∀ m : OpcodeMap, encodeWith m (.add rt rs) =
      (m .ADD).setWidth 32 ||| (rt.setWidth 32 <<< 8) ||| (rs.setWidth 32 <<< 16)) ∧
    ∃ t, exec (.add rt rs) s = .next t ∧
      (t.getReg ⟨rt.toNat, h⟩).toNat =
        ((s.getReg ⟨rt.toNat, h⟩).toNat + (s.getReg ⟨rs.toNat, rs.isLt⟩).toNat) % 2 ^ 32 ∧
      OnlyRegChanged ⟨rt.toNat, h⟩ s t

/-- R163: the encoding; and the body: target minus source modulo 2^32, the value in [0, 2^32); no flag, nothing else
changes. -/
def Obligations.SubIsModularDifference : Prop :=
  ∀ (rt : Byte) (rs : BitVec 3) (s : State) (h : rt.toNat < 8),
    (∀ m : OpcodeMap, encodeWith m (.sub rt rs) =
      (m .SUB).setWidth 32 ||| (rt.setWidth 32 <<< 8) ||| (rs.setWidth 32 <<< 16)) ∧
    ∃ t, exec (.sub rt rs) s = .next t ∧
      ((t.getReg ⟨rt.toNat, h⟩).toNat : Int) =
        ((s.getReg ⟨rt.toNat, h⟩).toNat - (s.getReg ⟨rs.toNat, rs.isLt⟩).toNat : Int) % 2 ^ 32 ∧
      OnlyRegChanged ⟨rt.toNat, h⟩ s t

/-- R164: the encoding; and the body: the low 32 bits of the exact integer product; no flag, nothing else changes. -/
def Obligations.MulIsModularProduct : Prop :=
  ∀ (rt : Byte) (rs : BitVec 3) (s : State) (h : rt.toNat < 8),
    (∀ m : OpcodeMap, encodeWith m (.mul rt rs) =
      (m .MUL).setWidth 32 ||| (rt.setWidth 32 <<< 8) ||| (rs.setWidth 32 <<< 16)) ∧
    ∃ t, exec (.mul rt rs) s = .next t ∧
      (t.getReg ⟨rt.toNat, h⟩).toNat =
        ((s.getReg ⟨rt.toNat, h⟩).toNat * (s.getReg ⟨rs.toNat, rs.isLt⟩).toNat) % 2 ^ 32 ∧
      OnlyRegChanged ⟨rt.toNat, h⟩ s t

/-- R170: the encoding; the words that decode to it, whatever register in 0..7 they name; and the body: `pc` becomes the
zero-extended target, unchecked; nothing else changes. -/
def Obligations.JmpSetsAbsoluteTarget : Prop :=
  ∀ (target : Half) (s : State),
    (∀ m : OpcodeMap, encodeWith m (.jmp target) =
      (m .JMP).setWidth 32 ||| (target.setWidth 32 <<< 16)) ∧
    (∀ (m : OpcodeMap) (w : Word), Function.Injective m → opcodeField w = m .JMP → (registerField w).toNat ≤ 7 →
      decodeWith m w = .instr (.jmp (dataField w))) ∧
    ∃ t, exec (.jmp target) s = .next t ∧ t.pc.toNat = target.toNat ∧ SameRegs s t ∧ SameRest s t ∧ SameMemory s t

/-- R171: the encoding; and the body: `pc` becomes the zero-extended target when the register is not 0 and is kept
when it is, whatever the flags; nothing else changes. -/
def Obligations.JnzTestsTheRegister : Prop :=
  ∀ (rt : Byte) (target : Half) (s : State) (h : rt.toNat < 8),
    (∀ m : OpcodeMap, encodeWith m (.jnz rt target) =
      (m .JNZ).setWidth 32 ||| (rt.setWidth 32 <<< 8) ||| (target.setWidth 32 <<< 16)) ∧
    ∃ t, exec (.jnz rt target) s = .next t ∧
      (s.getReg ⟨rt.toNat, h⟩ ≠ 0 → t.pc.toNat = target.toNat) ∧
      (s.getReg ⟨rt.toNat, h⟩ = 0 → t.pc = s.pc) ∧ SameRegs s t ∧ SameRest s t ∧ SameMemory s t

/-- The register file's check on an ill-formed instruction term (R22, R181; the model's choice to keep the 8-bit field
in the term, log 15): it raises, whatever the instruction, and changes nothing. -/
def Obligations.IllFormedTargetRaises : Prop :=
  ∀ (i : Instr) (rt : Byte) (s : State), i.targetField = some rt → 7 < rt.toNat →
    exec i s = .fault (.outOfRangeRegister rt s)

/-- R25 and R26: no instruction writes a flag, `sp` or `br`, and none writes what only the fetch writes. -/
def Obligations.NoInstructionWritesFlagsOrPointers : Prop :=
  ∀ (i : Instr) (s t : State), exec i s = .next t → SameInert s t ∧ SameFetchLatches s t

/-- The whole frame of memory, over all instructions: an instruction that stores nothing leaves every byte, and one that
stores leaves every byte outside the word at the address it computes (R151, R153, R120). -/
def Obligations.OnlyStoresChangeMemory : Prop :=
  ∀ (i : Instr) (s t : State), exec i s = .next t →
    (i.mnemonic ≠ .STORE_DIRECT → i.mnemonic ≠ .STORE_INDIRECT → t.mem = s.mem) ∧
    (∀ rt addr, i = .storeDirect rt addr → SameMemoryBut (directAddress addr) s t) ∧
    (∀ rt cell, i = .storeIndirect rt cell → SameMemoryBut (indirectAddress cell s) s t)

/-! ## The step -/

/-- R112 and R113: the fetch stage splits the word into the field latches and advances `pc` by 4 modulo 2^32, and
changes no general register, byte, flag, `sp` or `br`. -/
def Obligations.FetchSplitsTheWordAndAdvances : Prop :=
  ∀ (c : Config) (s : State), s.fetchable c →
    ∃ t, fetch c s = .next t ∧ t.ir = s.mem.readWord s.pc ∧
      t.rop.setWidth 32 = (t.ir >>> 8) &&& 0xFF#32 ∧ t.dop.setWidth 32 = t.ir >>> 16 ∧
      t.pc.toNat = (s.pc.toNat + 4) % 2 ^ 32 ∧ SameRegs s t ∧ SameMemory s t ∧ SameInert s t

/-- R110: where the word at `pc` decodes to an instruction, the step is that instruction's body on the state the fetch
leaves (its `mar`, `mbr` and the bound on `pc` are decisions D10 and D3; logs 10, 3), under any parameters and on this
machine. -/
def Obligations.StepRunsTheDecodedInstruction : Prop :=
  (∀ (c : Config) (s : State) (i : Instr), s.fetchable c →
    decodeWith c.opcodeMap (s.mem.readWord s.pc) = .instr i → stepWith c s = execWith c i (s.afterFetch c)) ∧
  (∀ (s : State) (i : Instr), s.pc.toNat ≤ 0xFFFFFFFC → decode (s.mem.readWord s.pc) = .instr i →
    step s = exec i (s.afterFetch Config.default))

/-- R35 (log 20): the machine of the fixed names is the one at the default parameters, instruction by instruction and
step by step. -/
def Obligations.DefaultParametersGiveTheMachine : Prop :=
  (∀ (i : Instr) (s : State), exec i s = execWith Config.default i s) ∧
  (∀ s : State, step s = stepWith Config.default s) ∧
  (∀ w : Word, decode w = decodeWith Config.default.opcodeMap w)

/-- The host's placing of a word where the machine fetches (the model's own convention, log 14): the next step runs
exactly the instruction the word decodes to, with every register, flag and latch as before, and `pc` too wherever a
word can be fetched at it. -/
def Obligations.PlacedWordIsExecutedNext : Prop :=
  ∀ (s : State) (w : Nat) (i : Instr), decodeTableWord 32 w = some i →
    step (s.withFetchWord 32 w) = exec i ((s.withFetchWord 32 w).afterFetch Config.default) ∧
    (s.withFetchWord 32 w).fetchWord = BitVec.ofNat 32 w ∧
    (s.pc.toNat ≤ 0xFFFFFFFC → (s.withFetchWord 32 w).pc = s.pc) ∧
    SameMemoryBut (s.withFetchWord 32 w).pc s (s.withFetchWord 32 w) ∧
    s.withFetchWord 32 w = { s with pc := (s.withFetchWord 32 w).pc, mem := (s.withFetchWord 32 w).mem }

/-- R182: a word with a register field in 0..7 raises UnknownOpcode exactly when its opcode is not in the map, and
leaves memory and registers unmodified. -/
def Obligations.UnknownOpcodeStopsTheStep : Prop :=
  ∀ (c : Config) (s : State), s.fetchable c → (registerField s.fetchWord).toNat ≤ 7 →
    ((∀ k, c.opcodeMap k ≠ opcodeField s.fetchWord) ↔
      ∃ t, stepWith c s = .fault (.unknownOpcode (opcodeField s.fetchWord) t)) ∧
    ∀ (o : Byte) (t : State), stepWith c s = .fault (.unknownOpcode o t) →
      o = opcodeField s.fetchWord ∧ SameRegs s t ∧ SameMemory s t ∧ SameInert s t

/-- R184 and R186 (decisions D3, D6, D8, D9; logs 3, 6, 8, 9): the order of the errors before the body, and the state
each leaves: nothing changed after a failing fetch, the fetch's effects after the other two. -/
def Obligations.ErrorPriorityAndStateLeft : Prop :=
  ∀ (c : Config) (s : State),
    (¬ Reaches c s.pc → stepWith c s = .fault (.addressOverflow s.pc s)) ∧
    (s.fetchable c → 7 < (registerField s.fetchWord).toNat →
      stepWith c s = .fault (.outOfRangeRegister (registerField s.fetchWord) (s.afterFetch c))) ∧
    (s.fetchable c → (registerField s.fetchWord).toNat ≤ 7 → (∀ k, c.opcodeMap k ≠ opcodeField s.fetchWord) →
      stepWith c s = .fault (.unknownOpcode (opcodeField s.fetchWord) (s.afterFetch c)))

/-- R180: the list of errors is closed, so a step answers a next state or one of the three errors, and the only errors
of a word that decodes are those of an indirect access. Under other parameters the one refusal is of a misaligned access
where alignment is required (log 5), and the only errors of a word that decodes are those of a memory access. -/
def Obligations.StepNeverRefuses : Prop :=
  (∀ (s : State) (r : Refusal), step s ≠ .refused r) ∧
  (∀ (s : State) (i : Instr) (f : Fault), s.pc.toNat ≤ 0xFFFFFFFC → decode s.fetchWord = .instr i →
    step s = .fault f → (i.mnemonic = .LOAD_INDIRECT ∨ i.mnemonic = .STORE_INDIRECT) ∧ f.kind = .addressOverflow) ∧
  (∀ (c : Config) (s : State) (r : Refusal), stepWith c s = .refused r →
    ∃ a : Word, r = .misalignedAccess a ∧ ¬ c.alignment ∣ a.toNat) ∧
  (∀ (c : Config) (s : State) (i : Instr) (f : Fault), s.fetchable c → decodeWith c.opcodeMap s.fetchWord = .instr i →
    stepWith c s = .fault f →
      i.mnemonic ∈ [Mnemonic.LOAD_DIRECT, .STORE_DIRECT, .LOAD_INDIRECT, .STORE_INDIRECT] ∧ f.kind = .addressOverflow)

/-- R117: a step that raises no error returns Ok, with halted true exactly when the opcode it executed was HALT's; and
nothing of having halted is recorded: the next step executes the word at `pc` like any other. -/
def Obligations.HaltedReportedExactlyForHalt : Prop :=
  ∀ (c : Config) (s t : State),
    (stepWith c s = .next t → ∃ halted, stepResult c s = .ok halted t) ∧
    (∀ halted, stepResult c s = .ok halted t →
      (halted = true ↔ opcodeField (s.mem.readWord s.pc) = c.opcodeMap .HALT) ∧
      ∀ i, t.fetchable c → decodeWith c.opcodeMap (t.mem.readWord t.pc) = .instr i →
        stepWith c t = execWith c i (t.afterFetch c))

/-- R172: JMP and a taken JNZ are the only steps that leave `pc` elsewhere than at the sequential successor. -/
def Obligations.OnlyJumpsLeaveTheSequence : Prop :=
  ∀ c : Config, Function.Injective c.opcodeMap → ∀ s t : State, stepWith c s = .next t →
    (opcodeField s.fetchWord = c.opcodeMap .JMP → t.pc.toNat = (dataField s.fetchWord).toNat) ∧
    (opcodeField s.fetchWord = c.opcodeMap .JNZ → ∀ h : (registerField s.fetchWord).toNat < 8,
      t.pc.toNat = if s.getReg ⟨(registerField s.fetchWord).toNat, h⟩ ≠ 0 then (dataField s.fetchWord).toNat
        else (s.pc.toNat + 4) % 2 ^ 32) ∧
    (opcodeField s.fetchWord ≠ c.opcodeMap .JMP → opcodeField s.fetchWord ≠ c.opcodeMap .JNZ →
      t.pc.toNat = (s.pc.toNat + 4) % 2 ^ 32)

/-- R116 and R120 (the spec's derived rule): what one step may change, and that it writes at most one of a general
register, a memory word and `pc`. -/
def Obligations.StepChangesAtMostOneThing : Prop :=
  ∀ c : Config, Function.Injective c.opcodeMap → ∀ s t : State, stepWith c s = .next t →
    SameInert s t ∧ t.ir = s.fetchWord ∧ t.rop = registerField s.fetchWord ∧ t.dop = dataField s.fetchWord ∧
    (∀ q : Fin 8, q.val ≠ (registerField s.fetchWord).toNat → t.getReg q = s.getReg q) ∧
    (opcodeField s.fetchWord ≠ c.opcodeMap .STORE_DIRECT → opcodeField s.fetchWord ≠ c.opcodeMap .STORE_INDIRECT →
      SameMemory s t) ∧
    (opcodeField s.fetchWord = c.opcodeMap .STORE_DIRECT → SameMemoryBut (directAddress (dataField s.fetchWord)) s t) ∧
    (opcodeField s.fetchWord = c.opcodeMap .STORE_INDIRECT →
      SameMemoryBut (indirectAddress (dataField s.fetchWord) s) s t) ∧
    (¬ SameRegs s t → SameMemory s t ∧ t.pc.toNat = (s.pc.toNat + 4) % 2 ^ 32) ∧
    (¬ SameMemory s t → SameRegs s t ∧ t.pc.toNat = (s.pc.toNat + 4) % 2 ^ 32)

/-- R119 (the spec's derived rule): the step depends on the general registers, `pc` and memory alone, not on the
latches, the flags, `sp` or `br`. -/
def Obligations.StepIgnoresLatchesAndFlags : Prop :=
  ∀ (c : Config) (s₁ s₂ : State), s₁.regs = s₂.regs → s₁.pc = s₂.pc → s₁.mem = s₂.mem →
    (∀ t₁, stepWith c s₁ = .next t₁ →
      ∃ t₂, stepWith c s₂ = .next t₂ ∧ t₁ = { t₂ with flags := t₁.flags, sp := t₁.sp, br := t₁.br }) ∧
    (∀ f₁, stepWith c s₁ = .fault f₁ →
      ∃ f₂, stepWith c s₂ = .fault f₂ ∧ f₁.kind = f₂.kind ∧ f₁.info = f₂.info ∧
        f₁.after.regs = f₂.after.regs ∧ f₁.after.pc = f₂.after.pc ∧ f₁.after.mem = f₂.after.mem) ∧
    (∀ r, stepWith c s₁ = .refused r → stepWith c s₂ = .refused r)

/-- R67 (the spec's derived rule; log 19): the fetch reads what a store wrote, so code may be written and run with no
precaution. -/
def Obligations.StoreIsSeenByTheNextFetch : Prop :=
  (∀ (rt : Byte) (addr : Half) (s t : State) (h : rt.toNat < 8), exec (.storeDirect rt addr) s = .next t →
    ∃ u, fetch Config.default (setPc (directAddress addr) t) = .next u ∧ u.ir = s.getReg ⟨rt.toNat, h⟩) ∧
  (∀ (rt : Byte) (cell : Half) (s t : State) (h : rt.toNat < 8), exec (.storeIndirect rt cell) s = .next t →
    ∃ u, fetch Config.default (setPc (indirectAddress cell s) t) = .next u ∧ u.ir = s.getReg ⟨rt.toNat, h⟩)

/-! ## The whole machine -/

/-- A freshly constructed core meets the invariant (the zeros of the latches, `sp`, `br`: decision D11, log 11; the
canonical form: log 12). -/
def Obligations.ConstructMeetsTheInvariant : Prop :=
  (∀ mem : Memory, mem.wf → (State.construct mem).Inv) ∧ State.reset.Inv

/-- Every step keeps the invariant, from every state that meets it (R25, R26, R30; the canonical form is the model's
choice, log 12). -/
def Obligations.StepKeepsTheInvariant : Prop :=
  ∀ (c : Config) (s t : State), s.Inv → stepWith c s = .next t → t.Inv

/-- The state an error leaves meets the invariant too (R186, decision D9; log 9). -/
def Obligations.ErrorStateKeepsTheInvariant : Prop :=
  ∀ (c : Config) (s : State) (f : Fault), s.Inv → stepWith c s = .fault f → f.after.Inv

/-- R25, R26 and R30 (the spec's derived sentences): in every state a driver can reach, every flag is false, `sp` and
`br` are 0, the field latches agree with `ir`, and the memory is canonical (log 12). -/
def Obligations.ReachableStatesMeetTheInvariant : Prop :=
  ∀ (c : Config) (s : State), Reachable c s → s.Inv

/-- R207 (decision D12; log 21): the two stopping protocols leave the same general registers and the same memory, and
the SIGNAL run ends 4 past the HALT's address, where the PEEK run ends; and a PEEK run that ends at a HALT whose
register field is valid ends the same way under SIGNAL. -/
def Obligations.PeekAndSignalAgree : Prop :=
  ∀ (c : Config) (n : Nat) (s : State),
    (∀ t, runSignal c (n + 1) s = .halted t →
      ∃ p, runPeek c n s = .halted p ∧ SameRegs p t ∧ SameMemory p t ∧
        t.pc.toNat = (p.pc.toNat + 4) % 2 ^ 32 ∧ t.ir = p.fetchWord) ∧
    (∀ p, runPeek c n s = .halted p → p.fetchable c → (registerField p.fetchWord).toNat ≤ 7 →
      ∃ t, runSignal c (n + 1) s = .halted t ∧ SameRegs p t ∧ SameMemory p t)

/-- R207, R208: which end a SIGNAL run that no error ends within `n` steps reaches: the driver's bound, at the state after
`n` steps, where none of them executed HALT; else the end of the run, at the state after the first step that did. -/
def Obligations.SafeRunEndsWithoutError : Prop :=
  ∀ (c : Config) (n : Nat) (s : State), SafeFor c n s →
    (HaltFree c n s → ∀ t, StepsTo c n s t → runSignal c n s = .bound t) ∧
    (∀ k < n, ∀ u v, HaltFree c k s → StepsTo c k s u → opcodeField u.fetchWord = c.opcodeMap .HALT →
      stepWith c u = .next v → runSignal c n s = .halted v)

/-- R207, R185: a run under either protocol whose first steps execute no HALT ends at the first error, the driver
aborting with it; PEEK where the byte at `pc` is not HALT's there, or where `pc` reaches a cap, so that its own check
raises (R59; that the driver then aborts is the model's choice, log 23). -/
def Obligations.ErrorEndsTheRun : Prop :=
  ∀ (c : Config) (n k : Nat) (s u : State) (f : Fault), k < n → HaltFree c k s → StepsTo c k s u →
    stepWith c u = .fault f →
    runSignal c n s = .error f ∧
    (u.mem.readByte u.pc.toNat ≠ c.opcodeMap .HALT ∨ (∃ cap, c.addrCap = some cap ∧ cap ≤ u.pc.toNat) →
      runPeek c n s = .error f)

/-- R207 and R59 (decisions D2, D12; logs 2, 21): PEEK's check under any parameters: below the cap it sees a HALT exactly
where the byte at `pc` is HALT's opcode, and at or beyond it it raises with nothing changed; and a run, whatever its
bound, ends at once where the check sees a HALT, or raises (that the driver then aborts is the model's choice, log 23). -/
def Obligations.PeekChecksTheByteAtPc : Prop :=
  ∀ (c : Config) (n : Nat) (s : State),
    let beyond := ∃ cap, c.addrCap = some cap ∧ cap ≤ s.pc.toNat
    (beyond → peeksHalt c s = .fault (.addressOverflow s.pc s) ∧
      runPeek c n s = .error (.addressOverflow s.pc s)) ∧
    (¬ beyond → ∃ halt, peeksHalt c s = .next halt ∧
      (halt = true ↔ s.mem.readByte s.pc.toNat = c.opcodeMap .HALT) ∧
      (halt = true → runPeek c n s = .halted s))
end

