-- ==== Sys2Proof/Laws/Bits.lean ====
section
/-! SUPPORT. The bytes of a word and the fields of an instruction word (20_memory.md R53, R54, 30_encoding.md R81
to R83): splitting undoes combining. -/

namespace Sys2Proof

/-! ## Bytes -/

theorem wordByte_wordOfBytes_zero (b0 b1 b2 b3 : Byte) : wordByte (wordOfBytes b0 b1 b2 b3) 0 = b0 := by
  apply BitVec.eq_of_getLsbD_eq
  intro i hi
  simp [wordByte, wordOfBytes]
  interval_cases i <;> simp

theorem wordByte_wordOfBytes_one (b0 b1 b2 b3 : Byte) : wordByte (wordOfBytes b0 b1 b2 b3) 1 = b1 := by
  apply BitVec.eq_of_getLsbD_eq
  intro i hi
  simp [wordByte, wordOfBytes]
  interval_cases i <;> simp

theorem wordByte_wordOfBytes_two (b0 b1 b2 b3 : Byte) : wordByte (wordOfBytes b0 b1 b2 b3) 2 = b2 := by
  apply BitVec.eq_of_getLsbD_eq
  intro i hi
  simp [wordByte, wordOfBytes]
  interval_cases i <;> simp

theorem wordByte_wordOfBytes_three (b0 b1 b2 b3 : Byte) : wordByte (wordOfBytes b0 b1 b2 b3) 3 = b3 := by
  apply BitVec.eq_of_getLsbD_eq
  intro i hi
  simp [wordByte, wordOfBytes]
  interval_cases i <;> simp

/-- Combining a word's own bytes gives the word back (the round trip of R55, for the two byte-order helpers). -/
@[simp] theorem wordOfBytes_wordByte (v : Word) :
    wordOfBytes (wordByte v 0) (wordByte v 1) (wordByte v 2) (wordByte v 3) = v := by
  apply BitVec.eq_of_getLsbD_eq
  intro i hi
  simp [wordByte, wordOfBytes]
  interval_cases i <;> simp

/-! ## Fields -/

theorem opcodeField_eq_wordByte (w : Word) : opcodeField w = wordByte w 0 := rfl

theorem registerField_eq_wordByte (w : Word) : registerField w = wordByte w 1 := rfl

@[simp] theorem opcodeField_wordOfBytes (b0 b1 b2 b3 : Byte) : opcodeField (wordOfBytes b0 b1 b2 b3) = b0 :=
  wordByte_wordOfBytes_zero b0 b1 b2 b3

@[simp] theorem opcodeField_assemble (o r : Byte) (d : Half) : opcodeField (assemble o r d) = o := by
  apply BitVec.eq_of_getLsbD_eq
  intro i hi
  simp [opcodeField, assemble]
  interval_cases i <;> simp

@[simp] theorem registerField_assemble (o r : Byte) (d : Half) : registerField (assemble o r d) = r := by
  apply BitVec.eq_of_getLsbD_eq
  intro i hi
  simp [registerField, assemble]
  interval_cases i <;> simp

@[simp] theorem dataField_assemble (o r : Byte) (d : Half) : dataField (assemble o r d) = d := by
  apply BitVec.eq_of_getLsbD_eq
  intro i hi
  simp [dataField, assemble]
  interval_cases i <;> simp

/-- A word is its three fields put together. -/
theorem assemble_fields (w : Word) : assemble (opcodeField w) (registerField w) (dataField w) = w := by
  apply BitVec.eq_of_getLsbD_eq
  intro i hi
  simp [opcodeField, registerField, dataField, assemble]
  interval_cases i <;> simp

/-- The source index survives being written into a zero dataOperand (R92). -/
@[simp] theorem sourceField_setWidth (rs : BitVec 3) : sourceField (rs.setWidth 16) = rs := by
  apply BitVec.eq_of_getLsbD_eq
  intro i hi
  simp [sourceField]
  interval_cases i <;> simp

end Sys2Proof
end

