-- ==== Sys2Proof/Laws/Decode.lean ====
section
/-! SUPPORT. The opcode map's lookup and the decoder's cases (30_encoding.md R86 to R90). -/

namespace Sys2Proof

theorem Mnemonic.mem_all (k : Mnemonic) : k ∈ Mnemonic.all := by
  cases k <;> decide

/-- A found operation has the opcode looked up. -/
theorem OpcodeMap.lookup_eq_some {m : OpcodeMap} {o : Byte} {k : Mnemonic} (h : m.lookup o = some k) : m k = o := by
  simpa using List.find?_some h

/-- An opcode is unknown exactly when no operation has it (R87). -/
theorem OpcodeMap.lookup_eq_none {m : OpcodeMap} {o : Byte} : m.lookup o = none ↔ ∀ k, m k ≠ o := by
  simp only [OpcodeMap.lookup, List.find?_eq_none]
  exact ⟨fun h k hk => h k (Mnemonic.mem_all k) (by simp [hk]), fun h k _ hk => h k (by simpa using hk)⟩

/-- Under an injective map, looking up an operation's own opcode finds it (R86). -/
theorem OpcodeMap.lookup_self {m : OpcodeMap} (hm : Function.Injective m) (k : Mnemonic) :
    m.lookup (m k) = some k := by
  cases h : m.lookup (m k) with
  | none => exact absurd rfl (OpcodeMap.lookup_eq_none.1 h k)
  | some k' => rw [hm (OpcodeMap.lookup_eq_some h)]

/-- HALT is the first row of the table, so its opcode finds it under any map. -/
theorem OpcodeMap.lookup_halt (m : OpcodeMap) : m.lookup (m .HALT) = some .HALT := by
  simp [OpcodeMap.lookup, Mnemonic.all]

theorem registerFieldOk_iff (r : Byte) : registerFieldOk r = true ↔ r.toNat < 8 := by
  simp only [registerFieldOk, decide_eq_true_eq]
  omega

/-- The decoder gives an instruction only for a register field in 0..7 and a known opcode. -/
theorem decodeWith_eq_instr {m : OpcodeMap} {w : Word} {i : Instr} (h : decodeWith m w = .instr i) :
    (registerField w).toNat < 8 ∧
      ∃ k, m.lookup (opcodeField w) = some k ∧ i = k.build (registerField w) (dataField w) := by
  unfold decodeWith at h
  split at h
  · next hr =>
    refine ⟨(registerFieldOk_iff _).1 hr, ?_⟩
    split at h
    · next k hk => exact ⟨k, hk, (Decoded.instr.inj h).symm⟩
    · cases h
  · cases h

/-- What an operation builds has that operation's name. -/
@[simp] theorem Mnemonic.build_mnemonic (k : Mnemonic) (r : Byte) (d : Half) : (k.build r d).mnemonic = k := by
  cases k <;> rfl

/-- What an operation builds of a valid field is well-formed. -/
theorem Mnemonic.build_wf (k : Mnemonic) {r : Byte} (d : Half) (h : registerFieldOk r = true) :
    (k.build r d).wf = true := by
  cases k <;> simp [Mnemonic.build, Instr.wf, Instr.targetField, h]

/-- The target field of what an operation builds is the field it was built of. -/
theorem Mnemonic.build_targetField {k : Mnemonic} {r rt : Byte} {d : Half}
    (h : (k.build r d).targetField = some rt) : rt = r := by
  cases k <;> simp_all [Mnemonic.build, Instr.targetField]

theorem opcodeMap_injective : Function.Injective opcodeMap := by
  intro a b
  cases a <;> cases b <;> decide

end Sys2Proof
end

