-- ==== Sys2Proof/Laws/State.lean ====
section
/-! SUPPORT. One lemma per field per update of State, and the register-file laws (10_state.md R20 to R22). -/

namespace Sys2Proof.Machine

/-! ## construct -/

@[simp] theorem State.construct_regs (m : Memory) : (State.construct m).regs = Vector.replicate 8 0 := rfl
@[simp] theorem State.construct_pc (m : Memory) : (State.construct m).pc = 0 := rfl
@[simp] theorem State.construct_flags (m : Memory) : (State.construct m).flags = Flags.clear := rfl
@[simp] theorem State.construct_sp (m : Memory) : (State.construct m).sp = 0 := rfl
@[simp] theorem State.construct_br (m : Memory) : (State.construct m).br = 0 := rfl
@[simp] theorem State.construct_mar (m : Memory) : (State.construct m).mar = 0 := rfl
@[simp] theorem State.construct_mbr (m : Memory) : (State.construct m).mbr = 0 := rfl
@[simp] theorem State.construct_ir (m : Memory) : (State.construct m).ir = 0 := rfl
@[simp] theorem State.construct_rop (m : Memory) : (State.construct m).rop = 0 := rfl
@[simp] theorem State.construct_dop (m : Memory) : (State.construct m).dop = 0 := rfl
@[simp] theorem State.construct_mem (m : Memory) : (State.construct m).mem = m := rfl

/-! ## setReg -/

@[simp] theorem State.setReg_regs (s : State) (r : Fin 8) (v : Word) : (s.setReg r v).regs = s.regs.set r.val v := rfl
@[simp] theorem State.setReg_pc (s : State) (r : Fin 8) (v : Word) : (s.setReg r v).pc = s.pc := rfl
@[simp] theorem State.setReg_flags (s : State) (r : Fin 8) (v : Word) : (s.setReg r v).flags = s.flags := rfl
@[simp] theorem State.setReg_sp (s : State) (r : Fin 8) (v : Word) : (s.setReg r v).sp = s.sp := rfl
@[simp] theorem State.setReg_br (s : State) (r : Fin 8) (v : Word) : (s.setReg r v).br = s.br := rfl
@[simp] theorem State.setReg_mar (s : State) (r : Fin 8) (v : Word) : (s.setReg r v).mar = s.mar := rfl
@[simp] theorem State.setReg_mbr (s : State) (r : Fin 8) (v : Word) : (s.setReg r v).mbr = s.mbr := rfl
@[simp] theorem State.setReg_ir (s : State) (r : Fin 8) (v : Word) : (s.setReg r v).ir = s.ir := rfl
@[simp] theorem State.setReg_rop (s : State) (r : Fin 8) (v : Word) : (s.setReg r v).rop = s.rop := rfl
@[simp] theorem State.setReg_dop (s : State) (r : Fin 8) (v : Word) : (s.setReg r v).dop = s.dop := rfl
@[simp] theorem State.setReg_mem (s : State) (r : Fin 8) (v : Word) : (s.setReg r v).mem = s.mem := rfl

/-! ## latchAccess -/

@[simp] theorem State.latchAccess_regs (c : Config) (s : State) (a v : Word) :
    (s.latchAccess c a v).regs = s.regs := rfl
@[simp] theorem State.latchAccess_pc (c : Config) (s : State) (a v : Word) :
    (s.latchAccess c a v).pc = s.pc := rfl
@[simp] theorem State.latchAccess_flags (c : Config) (s : State) (a v : Word) :
    (s.latchAccess c a v).flags = s.flags := rfl
@[simp] theorem State.latchAccess_sp (c : Config) (s : State) (a v : Word) :
    (s.latchAccess c a v).sp = s.sp := rfl
@[simp] theorem State.latchAccess_br (c : Config) (s : State) (a v : Word) :
    (s.latchAccess c a v).br = s.br := rfl
@[simp] theorem State.latchAccess_mar (c : Config) (s : State) (a v : Word) :
    (s.latchAccess c a v).mar = c.marAfter a v := rfl
@[simp] theorem State.latchAccess_mbr (c : Config) (s : State) (a v : Word) :
    (s.latchAccess c a v).mbr = c.mbrAfter a v := rfl
@[simp] theorem State.latchAccess_ir (c : Config) (s : State) (a v : Word) :
    (s.latchAccess c a v).ir = s.ir := rfl
@[simp] theorem State.latchAccess_rop (c : Config) (s : State) (a v : Word) :
    (s.latchAccess c a v).rop = s.rop := rfl
@[simp] theorem State.latchAccess_dop (c : Config) (s : State) (a v : Word) :
    (s.latchAccess c a v).dop = s.dop := rfl
@[simp] theorem State.latchAccess_mem (c : Config) (s : State) (a v : Word) :
    (s.latchAccess c a v).mem = s.mem := rfl

/-! ## latchInstruction -/

@[simp] theorem State.latchInstruction_regs (s : State) (w : Word) : (s.latchInstruction w).regs = s.regs := rfl
@[simp] theorem State.latchInstruction_pc (s : State) (w : Word) : (s.latchInstruction w).pc = s.pc := rfl
@[simp] theorem State.latchInstruction_flags (s : State) (w : Word) : (s.latchInstruction w).flags = s.flags := rfl
@[simp] theorem State.latchInstruction_sp (s : State) (w : Word) : (s.latchInstruction w).sp = s.sp := rfl
@[simp] theorem State.latchInstruction_br (s : State) (w : Word) : (s.latchInstruction w).br = s.br := rfl
@[simp] theorem State.latchInstruction_mar (s : State) (w : Word) : (s.latchInstruction w).mar = s.mar := rfl
@[simp] theorem State.latchInstruction_mbr (s : State) (w : Word) : (s.latchInstruction w).mbr = s.mbr := rfl
@[simp] theorem State.latchInstruction_ir (s : State) (w : Word) : (s.latchInstruction w).ir = w := rfl
@[simp] theorem State.latchInstruction_rop (s : State) (w : Word) : (s.latchInstruction w).rop = registerField w := rfl
@[simp] theorem State.latchInstruction_dop (s : State) (w : Word) : (s.latchInstruction w).dop = dataField w := rfl
@[simp] theorem State.latchInstruction_mem (s : State) (w : Word) : (s.latchInstruction w).mem = s.mem := rfl

/-! ## advancePc -/

@[simp] theorem State.advancePc_regs (s : State) : (s.advancePc).regs = s.regs := rfl
@[simp] theorem State.advancePc_pc (s : State) : (s.advancePc).pc = s.pc + instructionBytes := rfl
@[simp] theorem State.advancePc_flags (s : State) : (s.advancePc).flags = s.flags := rfl
@[simp] theorem State.advancePc_sp (s : State) : (s.advancePc).sp = s.sp := rfl
@[simp] theorem State.advancePc_br (s : State) : (s.advancePc).br = s.br := rfl
@[simp] theorem State.advancePc_mar (s : State) : (s.advancePc).mar = s.mar := rfl
@[simp] theorem State.advancePc_mbr (s : State) : (s.advancePc).mbr = s.mbr := rfl
@[simp] theorem State.advancePc_ir (s : State) : (s.advancePc).ir = s.ir := rfl
@[simp] theorem State.advancePc_rop (s : State) : (s.advancePc).rop = s.rop := rfl
@[simp] theorem State.advancePc_dop (s : State) : (s.advancePc).dop = s.dop := rfl
@[simp] theorem State.advancePc_mem (s : State) : (s.advancePc).mem = s.mem := rfl

/-! ## jumpTo -/

@[simp] theorem State.jumpTo_regs (s : State) (d : Half) : (s.jumpTo d).regs = s.regs := rfl
@[simp] theorem State.jumpTo_pc (s : State) (d : Half) : (s.jumpTo d).pc = jumpTarget d := rfl
@[simp] theorem State.jumpTo_flags (s : State) (d : Half) : (s.jumpTo d).flags = s.flags := rfl
@[simp] theorem State.jumpTo_sp (s : State) (d : Half) : (s.jumpTo d).sp = s.sp := rfl
@[simp] theorem State.jumpTo_br (s : State) (d : Half) : (s.jumpTo d).br = s.br := rfl
@[simp] theorem State.jumpTo_mar (s : State) (d : Half) : (s.jumpTo d).mar = s.mar := rfl
@[simp] theorem State.jumpTo_mbr (s : State) (d : Half) : (s.jumpTo d).mbr = s.mbr := rfl
@[simp] theorem State.jumpTo_ir (s : State) (d : Half) : (s.jumpTo d).ir = s.ir := rfl
@[simp] theorem State.jumpTo_rop (s : State) (d : Half) : (s.jumpTo d).rop = s.rop := rfl
@[simp] theorem State.jumpTo_dop (s : State) (d : Half) : (s.jumpTo d).dop = s.dop := rfl
@[simp] theorem State.jumpTo_mem (s : State) (d : Half) : (s.jumpTo d).mem = s.mem := rfl

/-! ## setPc -/

@[simp] theorem setPc_regs (v : Word) (s : State) : (setPc v s).regs = s.regs := rfl
@[simp] theorem setPc_pc (v : Word) (s : State) : (setPc v s).pc = v := rfl
@[simp] theorem setPc_flags (v : Word) (s : State) : (setPc v s).flags = s.flags := rfl
@[simp] theorem setPc_sp (v : Word) (s : State) : (setPc v s).sp = s.sp := rfl
@[simp] theorem setPc_br (v : Word) (s : State) : (setPc v s).br = s.br := rfl
@[simp] theorem setPc_mar (v : Word) (s : State) : (setPc v s).mar = s.mar := rfl
@[simp] theorem setPc_mbr (v : Word) (s : State) : (setPc v s).mbr = s.mbr := rfl
@[simp] theorem setPc_ir (v : Word) (s : State) : (setPc v s).ir = s.ir := rfl
@[simp] theorem setPc_rop (v : Word) (s : State) : (setPc v s).rop = s.rop := rfl
@[simp] theorem setPc_dop (v : Word) (s : State) : (setPc v s).dop = s.dop := rfl
@[simp] theorem setPc_mem (v : Word) (s : State) : (setPc v s).mem = s.mem := rfl

/-! ## writeAlu -/

@[simp] theorem writeAlu_regs (t : Fin 8) (a b v : Word) (s : State) :
    (writeAlu t a b v s).regs = s.regs.set t.val v := rfl
@[simp] theorem writeAlu_pc (t : Fin 8) (a b v : Word) (s : State) : (writeAlu t a b v s).pc = s.pc := rfl
@[simp] theorem writeAlu_flags (t : Fin 8) (a b v : Word) (s : State) : (writeAlu t a b v s).flags = s.flags := rfl
@[simp] theorem writeAlu_sp (t : Fin 8) (a b v : Word) (s : State) : (writeAlu t a b v s).sp = s.sp := rfl
@[simp] theorem writeAlu_br (t : Fin 8) (a b v : Word) (s : State) : (writeAlu t a b v s).br = s.br := rfl
@[simp] theorem writeAlu_mar (t : Fin 8) (a b v : Word) (s : State) : (writeAlu t a b v s).mar = s.mar := rfl
@[simp] theorem writeAlu_mbr (t : Fin 8) (a b v : Word) (s : State) : (writeAlu t a b v s).mbr = s.mbr := rfl
@[simp] theorem writeAlu_ir (t : Fin 8) (a b v : Word) (s : State) : (writeAlu t a b v s).ir = s.ir := rfl
@[simp] theorem writeAlu_rop (t : Fin 8) (a b v : Word) (s : State) : (writeAlu t a b v s).rop = s.rop := rfl
@[simp] theorem writeAlu_dop (t : Fin 8) (a b v : Word) (s : State) : (writeAlu t a b v s).dop = s.dop := rfl
@[simp] theorem writeAlu_mem (t : Fin 8) (a b v : Word) (s : State) : (writeAlu t a b v s).mem = s.mem := rfl

/-! ## afterFetch -/

@[simp] theorem State.afterFetch_regs (c : Config) (s : State) : (s.afterFetch c).regs = s.regs := rfl
@[simp] theorem State.afterFetch_pc (c : Config) (s : State) :
    (s.afterFetch c).pc = BitVec.ofNat 32 ((s.pc.toNat + 4) % 2 ^ 32) := rfl
@[simp] theorem State.afterFetch_flags (c : Config) (s : State) : (s.afterFetch c).flags = s.flags := rfl
@[simp] theorem State.afterFetch_sp (c : Config) (s : State) : (s.afterFetch c).sp = s.sp := rfl
@[simp] theorem State.afterFetch_br (c : Config) (s : State) : (s.afterFetch c).br = s.br := rfl
@[simp] theorem State.afterFetch_mar (c : Config) (s : State) : (s.afterFetch c).mar = c.marAfter s.pc s.fetchWord := rfl
@[simp] theorem State.afterFetch_mbr (c : Config) (s : State) : (s.afterFetch c).mbr = c.mbrAfter s.pc s.fetchWord := rfl
@[simp] theorem State.afterFetch_ir (c : Config) (s : State) : (s.afterFetch c).ir = s.fetchWord := rfl
@[simp] theorem State.afterFetch_rop (c : Config) (s : State) : (s.afterFetch c).rop = registerField s.fetchWord := rfl
@[simp] theorem State.afterFetch_dop (c : Config) (s : State) : (s.afterFetch c).dop = dataField s.fetchWord := rfl
@[simp] theorem State.afterFetch_mem (c : Config) (s : State) : (s.afterFetch c).mem = s.mem := rfl

/-! ## The register file -/

/-- Reading depends on the register file alone. -/
theorem State.getReg_congr {s t : State} (h : t.regs = s.regs) (r : Fin 8) : t.getReg r = s.getReg r := by
  simp only [State.getReg, h]

@[simp] theorem State.getReg_setReg_self (s : State) (r : Fin 8) (v : Word) :
    (s.setReg r v).getReg r = v := by
  simp [State.getReg]

theorem State.getReg_setReg_ne (s : State) {r q : Fin 8} (v : Word) (h : q ≠ r) :
    (s.setReg r v).getReg q = s.getReg q := by
  have h' : r.val ≠ q.val := fun e => h (Fin.ext e.symm)
  simp [State.getReg, Vector.getElem_set_ne _ _ h']

@[simp] theorem getReg_writeAlu_self (s : State) (r : Fin 8) (a b v : Word) :
    (writeAlu r a b v s).getReg r = v :=
  State.getReg_setReg_self s r v

theorem getReg_writeAlu_ne (s : State) {r q : Fin 8} (a b v : Word) (h : q ≠ r) :
    (writeAlu r a b v s).getReg q = s.getReg q :=
  State.getReg_setReg_ne s v h

@[simp] theorem State.getReg_latchAccess (c : Config) (s : State) (a v : Word) (r : Fin 8) :
    (s.latchAccess c a v).getReg r = s.getReg r := rfl

@[simp] theorem State.getReg_jumpTo (s : State) (d : Half) (r : Fin 8) :
    (s.jumpTo d).getReg r = s.getReg r := rfl

@[simp] theorem State.getReg_afterFetch (c : Config) (s : State) (r : Fin 8) :
    (s.afterFetch c).getReg r = s.getReg r := rfl

@[simp] theorem State.getReg_construct (m : Memory) (r : Fin 8) : (State.construct m).getReg r = 0 := by
  simp [State.getReg]

/-- Equal register files are files that read the same. -/
theorem State.regs_eq_of_getReg {s t : State} (h : ∀ r : Fin 8, t.getReg r = s.getReg r) : t.regs = s.regs := by
  apply Vector.ext
  intro i hi
  exact h ⟨i, hi⟩

end Sys2Proof.Machine
end

