-- ==== Sys2Proof/Laws/Memory.lean ====
section
/-! SUPPORT. The laws of memory (20_memory.md R50 to R54): what a byte write changes and keeps, that every write
keeps the canonical form, and what a word write does to each byte. -/

namespace Sys2Proof.Machine

/-! ## Bytes -/

@[simp] theorem Memory.readByte_nil (a : Nat) : Memory.readByte [] a = Memory.unwritten := rfl

theorem Memory.readByte_cons (c : Host.Cell) (m : Memory) (a : Nat) :
    Memory.readByte (c :: m) a = if c.1 = a then c.2 else Memory.readByte m a := rfl

/-- An address no entry names reads as unwritten. -/
theorem Memory.readByte_of_forall_ne {m : Memory} {a : Nat} (h : ∀ c ∈ m, c.1 ≠ a) :
    m.readByte a = Memory.unwritten := by
  induction m with
  | nil => rfl
  | cons c rest ih =>
    rw [Memory.readByte_cons, if_neg (h c (by simp))]
    exact ih fun d hd => h d (by simp [hd])

theorem Memory.erase_forall_ne (m : Memory) (a : Nat) : ∀ c ∈ m.erase a, c.1 ≠ a := by
  intro c hc
  simpa [Memory.erase] using (List.mem_filter.1 hc).2

theorem Memory.readByte_erase_ne (m : Memory) {a b : Nat} (h : b ≠ a) :
    (m.erase a).readByte b = m.readByte b := by
  induction m with
  | nil => rfl
  | cons c rest ih =>
    have ih' : Memory.readByte (List.filter (fun c => c.1 != a) rest) b = Memory.readByte rest b := ih
    by_cases hc : c.1 = a
    · have hb : ¬ a = b := fun e => h e.symm
      simp [Memory.erase, hc, Memory.readByte_cons, ih', hb]
    · simp [Memory.erase, hc, Memory.readByte_cons, ih']

theorem Memory.readByte_place_self {m : Memory} {a : Nat} (b : Byte) (h : ∀ c ∈ m, c.1 ≠ a) :
    (Memory.place m a b).readByte a = b := by
  induction m with
  | nil => simp [Memory.place, Memory.readByte_cons]
  | cons c rest ih =>
    unfold Memory.place
    split
    · simp [Memory.readByte_cons]
    · rw [Memory.readByte_cons, if_neg (h c (by simp))]
      exact ih fun d hd => h d (by simp [hd])

theorem Memory.readByte_place_ne (m : Memory) {a q : Nat} (b : Byte) (h : q ≠ a) :
    (Memory.place m a b).readByte q = m.readByte q := by
  induction m with
  | nil => simp [Memory.place, Memory.readByte_cons, Ne.symm h]
  | cons c rest ih =>
    unfold Memory.place
    split
    · rw [Memory.readByte_cons, if_neg (Ne.symm h)]
    · rw [Memory.readByte_cons, Memory.readByte_cons, ih]

/-- What was written is read. -/
@[simp] theorem Memory.readByte_writeByte_self (m : Memory) (a : Nat) (b : Byte) :
    (m.writeByte a b).readByte a = b := by
  unfold Memory.writeByte
  split
  · next h => rw [h]; exact Memory.readByte_of_forall_ne (Memory.erase_forall_ne m a)
  · exact Memory.readByte_place_self b (Memory.erase_forall_ne m a)

/-- A byte write leaves every other byte alone. -/
theorem Memory.readByte_writeByte_ne (m : Memory) {a q : Nat} (b : Byte) (h : q ≠ a) :
    (m.writeByte a b).readByte q = m.readByte q := by
  unfold Memory.writeByte
  split
  · exact Memory.readByte_erase_ne m h
  · rw [Memory.readByte_place_ne _ b h, Memory.readByte_erase_ne m h]

/-! ## The canonical form -/

theorem Memory.wf_nil : Memory.wf [] :=
  ⟨List.Pairwise.nil, fun _ h => absurd h (by simp)⟩

theorem Memory.wf_erase {m : Memory} (h : m.wf) (a : Nat) : (m.erase a).wf :=
  ⟨h.1.filter _, fun c hc => h.2 c (List.mem_filter.1 hc).1⟩

theorem Memory.mem_place {m : Memory} {a : Nat} {b : Byte} {c : Host.Cell} (h : c ∈ Memory.place m a b) :
    c = (a, b) ∨ c ∈ m := by
  induction m with
  | nil => simpa [Memory.place] using h
  | cons d rest ih =>
    unfold Memory.place at h
    split at h
    · simpa using h
    · rcases List.mem_cons.1 h with h | h
      · exact .inr (by simp [h])
      · rcases ih h with h | h
        · exact .inl h
        · exact .inr (by simp [h])

theorem Memory.wf_place {m : Memory} (h : m.wf) {a : Nat} {b : Byte} (hne : ∀ c ∈ m, c.1 ≠ a)
    (hb : b ≠ Memory.unwritten) (ha : a < 2 ^ 32) : (Memory.place m a b).wf := by
  refine ⟨?_, fun c hc => ?_⟩
  · obtain ⟨h, -⟩ := h
    induction m with
    | nil => simp [Memory.place]
    | cons d rest ih =>
      obtain ⟨hd, hr⟩ := List.pairwise_cons.1 h
      unfold Memory.place
      split
      · next hlt =>
        refine List.pairwise_cons.2 ⟨fun c hc => ?_, h⟩
        rcases List.mem_cons.1 hc with rfl | hc
        · exact hlt
        · exact hlt.trans (hd c hc)
      · next hlt =>
        have hda : d.1 < a := by
          have := hne d (by simp)
          omega
        refine List.pairwise_cons.2 ⟨fun c hc => ?_, ih (fun c hc => hne c (by simp [hc])) hr⟩
        rcases Memory.mem_place hc with rfl | hc
        · exact hda
        · exact hd c hc
  · rcases Memory.mem_place hc with rfl | hc
    · exact ⟨hb, ha⟩
    · exact h.2 c hc

/-- A byte write keeps the canonical form. -/
theorem Memory.wf_writeByte {m : Memory} (h : m.wf) {a : Nat} (b : Byte) (ha : a < 2 ^ 32) :
    (m.writeByte a b).wf := by
  unfold Memory.writeByte
  split
  · exact Memory.wf_erase h a
  · next hb => exact Memory.wf_place (Memory.wf_erase h a) (Memory.erase_forall_ne m a) hb ha

/-- A word write keeps the canonical form. -/
theorem Memory.wf_writeWord {m : Memory} (h : m.wf) (a v : Word) : (m.writeWord a v).wf := by
  unfold Memory.writeWord
  exact Memory.wf_writeByte (Memory.wf_writeByte (Memory.wf_writeByte (Memory.wf_writeByte h _ a.isLt) _
    (a + 1).isLt) _ (a + 2).isLt) _ (a + 3).isLt

/-! ## Words -/

/-- Below the top the four addresses of a word count on as numbers. -/
theorem toNat_add_of_le {a : Word} (h : a.toNat ≤ 0xFFFFFFFC) :
    (a + 1).toNat = a.toNat + 1 ∧ (a + 2).toNat = a.toNat + 2 ∧ (a + 3).toNat = a.toNat + 3 := by
  refine ⟨?_, ?_, ?_⟩ <;> bv_omega

/-- The four bytes of a word write, and no other, take the word's bytes. -/
theorem Memory.readByte_writeWord (m : Memory) (a v : Word) :
    (m.writeWord a v).readByte a.toNat = wordByte v 0 ∧ (m.writeWord a v).readByte (a + 1).toNat = wordByte v 1 ∧
      (m.writeWord a v).readByte (a + 2).toNat = wordByte v 2 ∧
      (m.writeWord a v).readByte (a + 3).toNat = wordByte v 3 ∧
      ∀ q : Nat, q ≠ a.toNat → q ≠ (a + 1).toNat → q ≠ (a + 2).toNat → q ≠ (a + 3).toNat →
        (m.writeWord a v).readByte q = m.readByte q := by
  unfold Memory.writeWord
  refine ⟨?_, ?_, ?_, Memory.readByte_writeByte_self _ _ _, fun q h0 h1 h2 h3 => ?_⟩
  · rw [Memory.readByte_writeByte_ne _ _ (by bv_omega), Memory.readByte_writeByte_ne _ _ (by bv_omega),
      Memory.readByte_writeByte_ne _ _ (by bv_omega), Memory.readByte_writeByte_self]
  · rw [Memory.readByte_writeByte_ne _ _ (by bv_omega), Memory.readByte_writeByte_ne _ _ (by bv_omega),
      Memory.readByte_writeByte_self]
  · rw [Memory.readByte_writeByte_ne _ _ (by bv_omega), Memory.readByte_writeByte_self]
  · rw [Memory.readByte_writeByte_ne _ _ h3, Memory.readByte_writeByte_ne _ _ h2, Memory.readByte_writeByte_ne _ _ h1,
      Memory.readByte_writeByte_ne _ _ h0]

/-- The four bytes a word read sees. -/
theorem Memory.wordByte_readWord (m : Memory) (a : Word) :
    wordByte (m.readWord a) 0 = m.readByte a.toNat ∧ wordByte (m.readWord a) 1 = m.readByte (a + 1).toNat ∧
      wordByte (m.readWord a) 2 = m.readByte (a + 2).toNat ∧ wordByte (m.readWord a) 3 = m.readByte (a + 3).toNat :=
  ⟨wordByte_wordOfBytes_zero _ _ _ _, wordByte_wordOfBytes_one _ _ _ _, wordByte_wordOfBytes_two _ _ _ _,
    wordByte_wordOfBytes_three _ _ _ _⟩

/-- A word read sees its four bytes and nothing else. -/
theorem Memory.readWord_congr {m n : Memory} {a : Word} (h0 : m.readByte a.toNat = n.readByte a.toNat)
    (h1 : m.readByte (a + 1).toNat = n.readByte (a + 1).toNat)
    (h2 : m.readByte (a + 2).toNat = n.readByte (a + 2).toNat)
    (h3 : m.readByte (a + 3).toNat = n.readByte (a + 3).toNat) : m.readWord a = n.readWord a := by
  simp only [Memory.readWord, h0, h1, h2, h3]

/-- The round trip of R55 on memory as data. -/
theorem Memory.readWord_writeWord_self (m : Memory) (a v : Word) : (m.writeWord a v).readWord a = v := by
  obtain ⟨h0, h1, h2, h3, -⟩ := Memory.readByte_writeWord m a v
  rw [Memory.readWord, h0, h1, h2, h3, wordOfBytes_wordByte]

/-- The opcode of the word at an address is the byte there (R82). -/
@[simp] theorem Memory.opcodeField_readWord (m : Memory) (a : Word) :
    opcodeField (m.readWord a) = m.readByte a.toNat := by
  simp [Memory.readWord]

end Sys2Proof.Machine
end

