-- ==== Sys2Proof/Laws/Ops.lean ====
section
/-! SUPPORT. One lemma per shared operation, saying once everything it can do: sequencing, the register check, the
core's word accesses (20_memory.md R58, R60), the operand forms, and the fetch (40_cycle.md R111 to R113). -/

namespace Sys2Proof.Machine

/-! ## Sequencing -/

@[simp] theorem andThen_next {α β : Type} (a : α) (k : α → Result β) : andThen (.next a) k = k a := rfl

@[simp] theorem andThen_fault {α β : Type} (f : Fault) (k : α → Result β) :
    andThen (Host.Outcome.fault f) k = .fault f := rfl

@[simp] theorem andThen_refused {α β : Type} (n : Refusal) (k : α → Result β) :
    andThen (Host.Outcome.refused n) k = .refused n := rfl

/-- A sequence that answers a next state ran both its parts. -/
theorem andThen_eq_next {α β : Type} {r : Result α} {k : α → Result β} {b : β} (h : andThen r k = .next b) :
    ∃ a, r = .next a ∧ k a = .next b := by
  cases r with
  | next a => exact ⟨a, rfl, h⟩
  | fault f => cases h
  | refused n => cases h

/-! ## The register check -/

theorem withTarget_of_lt {α : Type} {field : Byte} (s : State) (body : Fin 8 → Result α) (h : field.toNat < 8) :
    withTarget field s body = body ⟨field.toNat, h⟩ := by
  simp [withTarget, h]

theorem withTarget_of_ge {α : Type} {field : Byte} (s : State) (body : Fin 8 → Result α) (h : ¬ field.toNat < 8) :
    withTarget field s body = .fault (.outOfRangeRegister field s) := by
  simp [withTarget, h, raise]

/-- A checked body that answers a value was given a valid register. -/
theorem withTarget_eq_next {α : Type} {field : Byte} {s : State} {body : Fin 8 → Result α} {a : α}
    (h : withTarget field s body = .next a) : ∃ hr : field.toNat < 8, body ⟨field.toNat, hr⟩ = .next a := by
  by_cases hr : field.toNat < 8
  · exact ⟨hr, by rwa [withTarget_of_lt _ _ hr] at h⟩
  · rw [withTarget_of_ge _ _ hr] at h; cases h

/-- A checked body that faults was given no register, or faulted itself. -/
theorem withTarget_eq_fault {α : Type} {field : Byte} {s : State} {body : Fin 8 → Result α} {f : Fault}
    (h : withTarget field s body = .fault f) :
    (¬ field.toNat < 8 ∧ f = .outOfRangeRegister field s) ∨
      ∃ hr : field.toNat < 8, body ⟨field.toNat, hr⟩ = .fault f := by
  by_cases hr : field.toNat < 8
  · exact .inr ⟨hr, by rwa [withTarget_of_lt _ _ hr] at h⟩
  · rw [withTarget_of_ge _ _ hr] at h; cases h; exact .inl ⟨hr, rfl⟩

/-! ## Operand forms -/

@[simp] theorem zext_toNat (d : Half) : (zext d).toNat = d.toNat := by
  simp only [zext, BitVec.toNat_setWidth]
  have := d.isLt
  omega

/-- Every address a dataOperand forms is in 0..0xFFFF (R85). -/
theorem zext_le (d : Half) : (zext d).toNat ≤ 0xFFFF := by
  have := d.isLt
  rw [zext_toNat]
  omega

/-- A direct address is far below the last word of memory (R150, R154). -/
theorem directAddress_le (addr : Half) : (directAddress addr).toNat ≤ 0xFFFFFFFC := (zext_le addr).trans (by omega)

/-- A pointer cell is far below the last word of memory (R152, R154). -/
theorem pointerCell_le (cell : Half) : (pointerCell cell).toNat ≤ 0xFFFFFFFC := (zext_le cell).trans (by omega)

theorem branchTaken_iff (v : Word) : branchTaken v = true ↔ v ≠ 0 := by
  simp [branchTaken]

/-! ## Bounds and alignment -/

theorem wordInBounds_iff (c : Config) (a : Word) : wordInBounds c a = true ↔ Reaches c a := by
  unfold wordInBounds belowCap Reaches
  cases hc : c.addrCap <;> simp

theorem wordAligned_iff (c : Config) (a : Word) : wordAligned c a = true ↔ c.alignment ∣ a.toNat := by
  simp [wordAligned, Nat.dvd_iff_mod_eq_zero]

/-- At the default parameters a word access goes on exactly up to 0xFFFFFFFC (R58). -/
theorem reaches_default (a : Word) : Reaches Config.default a ↔ a.toNat ≤ 0xFFFFFFFC := by
  simp [Reaches, Config.default]

theorem accepts_default (a : Word) : Accepts Config.default a ↔ a.toNat ≤ 0xFFFFFFFC := by
  rw [Accepts, reaches_default]
  exact and_iff_left (Nat.one_dvd _)

/-- The three answers of a guarded word access. -/
theorem guardWord_of_accepts {α : Type} {c : Config} {a : Word} (s : State) (r : Result α) (h : Accepts c a) :
    guardWord c a s r = r := by
  simp [guardWord, (wordInBounds_iff c a).2 h.1, (wordAligned_iff c a).2 h.2]

theorem guardWord_of_not_reaches {α : Type} {c : Config} {a : Word} (s : State) (r : Result α) (h : ¬ Reaches c a) :
    guardWord c a s r = .fault (.addressOverflow a s) := by
  simp [guardWord, mt (wordInBounds_iff c a).1 h, raise]

theorem guardWord_of_misaligned {α : Type} {c : Config} {a : Word} (s : State) (r : Result α) (h : Reaches c a)
    (hd : ¬ c.alignment ∣ a.toNat) : guardWord c a s r = .refused (.misalignedAccess a) := by
  simp [guardWord, (wordInBounds_iff c a).2 h, mt (wordAligned_iff c a).1 hd]

/-- With no cap a byte access goes on (R51, R52). -/
theorem guardByte_default {α : Type} (a : Word) (s : State) (r : Result α) : guardByte Config.default a s r = r := rfl

/-- Whatever the parameters, a word write that goes on has done its four byte writes and nothing else (R54). -/
theorem memWriteWord_eq_next {c : Config} {a v : Word} {s t : State} (h : memWriteWord c a v s = .next t) :
    Accepts c a ∧ t = { s with mem := s.mem.writeWord a v } := by
  unfold memWriteWord guardWord at h
  split at h
  · next hb =>
    split at h
    · next hd => cases h; exact ⟨⟨(wordInBounds_iff c a).1 hb, (wordAligned_iff c a).1 hd⟩, rfl⟩
    · cases h
  · cases h

/-- The round trip of R55, whatever the parameters: a word write that goes on is read back whole. -/
theorem memReadWord_of_memWriteWord {c : Config} {a v : Word} {s t : State} (h : memWriteWord c a v s = .next t) :
    memReadWord c a t = .next v := by
  obtain ⟨ha, rfl⟩ := memWriteWord_eq_next h
  rw [memReadWord, guardWord_of_accepts _ _ ha, Memory.readWord_writeWord_self]

/-! ## Word accesses -/

theorem loadW_of_accepts {c : Config} {a : Word} (s : State) (h : Accepts c a) :
    loadW c a s = .next (s.mem.readWord a, s.latchAccess c a (s.mem.readWord a)) := by
  simp [loadW, memReadWord, guardWord_of_accepts _ _ h]

theorem loadW_of_not_reaches {c : Config} {a : Word} (s : State) (h : ¬ Reaches c a) :
    loadW c a s = .fault (.addressOverflow a s) := by
  simp [loadW, memReadWord, guardWord_of_not_reaches _ _ h]

theorem loadW_of_misaligned {c : Config} {a : Word} (s : State) (h : Reaches c a) (hd : ¬ c.alignment ∣ a.toNat) :
    loadW c a s = .refused (.misalignedAccess a) := by
  simp [loadW, memReadWord, guardWord_of_misaligned _ _ h hd]

theorem storeW_of_accepts {c : Config} {a : Word} (v : Word) (s : State) (h : Accepts c a) :
    storeW c a v s = .next (State.latchAccess c { s with mem := s.mem.writeWord a v } a v) := by
  simp [storeW, memWriteWord, guardWord_of_accepts _ _ h]

theorem storeW_of_not_reaches {c : Config} {a : Word} (v : Word) (s : State) (h : ¬ Reaches c a) :
    storeW c a v s = .fault (.addressOverflow a s) := by
  simp [storeW, memWriteWord, guardWord_of_not_reaches _ _ h]

theorem storeW_of_misaligned {c : Config} {a : Word} (v : Word) (s : State) (h : Reaches c a)
    (hd : ¬ c.alignment ∣ a.toNat) : storeW c a v s = .refused (.misalignedAccess a) := by
  simp [storeW, memWriteWord, guardWord_of_misaligned _ _ h hd]

/-- The three answers of a word load, as the only ones. -/
theorem loadW_cases (c : Config) (a : Word) (s : State) :
    (Accepts c a ∧ loadW c a s = .next (s.mem.readWord a, s.latchAccess c a (s.mem.readWord a))) ∨
      (¬ Reaches c a ∧ loadW c a s = .fault (.addressOverflow a s)) ∨
      (¬ c.alignment ∣ a.toNat ∧ loadW c a s = .refused (.misalignedAccess a)) := by
  by_cases h : Reaches c a
  · by_cases hd : c.alignment ∣ a.toNat
    · exact .inl ⟨⟨h, hd⟩, loadW_of_accepts s ⟨h, hd⟩⟩
    · exact .inr (.inr ⟨hd, loadW_of_misaligned s h hd⟩)
  · exact .inr (.inl ⟨h, loadW_of_not_reaches s h⟩)

/-- The three answers of a word store, as the only ones. -/
theorem storeW_cases (c : Config) (a v : Word) (s : State) :
    (Accepts c a ∧ storeW c a v s = .next (State.latchAccess c { s with mem := s.mem.writeWord a v } a v)) ∨
      (¬ Reaches c a ∧ storeW c a v s = .fault (.addressOverflow a s)) ∨
      (¬ c.alignment ∣ a.toNat ∧ storeW c a v s = .refused (.misalignedAccess a)) := by
  by_cases h : Reaches c a
  · by_cases hd : c.alignment ∣ a.toNat
    · exact .inl ⟨⟨h, hd⟩, storeW_of_accepts v s ⟨h, hd⟩⟩
    · exact .inr (.inr ⟨hd, storeW_of_misaligned v s h hd⟩)
  · exact .inr (.inl ⟨h, storeW_of_not_reaches v s h⟩)

/-- A word write changes no byte outside its word. -/
theorem sameMemoryBut_of_writeWord {a v : Word} {s t : State} (h : t.mem = s.mem.writeWord a v) :
    SameMemoryBut a s t := by
  obtain ⟨-, -, -, -, ho⟩ := Memory.readByte_writeWord s.mem a v
  exact fun q h0 h1 h2 h3 => h ▸ ho q h0 h1 h2 h3

/-! ## The loader -/

/-- With no cap loading any bytes goes on (R52, R203). -/
theorem loadBytes_default (a : Word) (bytes : List Byte) (s : State) :
    ∃ t, loadBytes Config.default a bytes s = .next t := by
  induction bytes generalizing a s with
  | nil => exact ⟨s, rfl⟩
  | cons b bytes ih => exact ih (a + 1) { s with mem := s.mem.writeByte a.toNat b }

/-- A byte store that goes on has written its byte. -/
theorem storeByte_eq_next {c : Config} {a : Word} {b : Byte} {s t : State} (h : storeByte c a b s = .next t) :
    t = { s with mem := s.mem.writeByte a.toNat b } := by
  unfold storeByte memWriteByte guardByte at h
  split at h <;> cases h
  rfl

/-! ## PEEK's check -/

/-- Below the cap, or with none, PEEK sees HALT exactly where the byte at `pc` is HALT's opcode (R207). -/
theorem peeksHalt_of_belowCap {c : Config} {s : State} (h : belowCap c s.pc.toNat = true) :
    peeksHalt c s = .next (s.mem.readByte s.pc.toNat == c.opcodeMap .HALT) := by
  simp [peeksHalt, memReadByte, guardByte, h]

/-- At or beyond the cap it raises, and changes nothing (R59). -/
theorem peeksHalt_of_not_belowCap {c : Config} {s : State} (h : ¬ belowCap c s.pc.toNat = true) :
    peeksHalt c s = .fault (.addressOverflow s.pc s) := by
  simp [peeksHalt, memReadByte, guardByte, h, raise]

/-- A fetchable `pc` is below the cap, so PEEK's check goes on there. -/
theorem belowCap_of_reaches {c : Config} {a : Word} (h : Reaches c a) : belowCap c a.toNat = true := by
  unfold belowCap
  cases hc : c.addrCap with
  | none => rfl
  | some cap =>
    have := h.2 cap hc
    simp only [decide_eq_true_eq]
    omega

/-! ## The fetch -/

theorem fetch_of_fetchable {c : Config} {s : State} (h : s.fetchable c) : fetch c s = .next (s.afterFetch c) := by
  have hpc : s.pc + instructionBytes = BitVec.ofNat 32 ((s.pc.toNat + 4) % 2 ^ 32) := by
    apply BitVec.eq_of_toNat_eq
    simp [instructionBytes, BitVec.toNat_add]
  simp only [fetch, loadW_of_accepts s h, andThen_next]
  simp only [State.advancePc, State.latchInstruction, State.latchAccess, State.afterFetch, State.fetchWord, hpc]

theorem fetch_of_not_reaches {c : Config} {s : State} (h : ¬ Reaches c s.pc) :
    fetch c s = .fault (.addressOverflow s.pc s) := by
  simp [fetch, loadW_of_not_reaches s h]

theorem fetch_of_misaligned {c : Config} {s : State} (h : Reaches c s.pc) (hd : ¬ c.alignment ∣ s.pc.toNat) :
    fetch c s = .refused (.misalignedAccess s.pc) := by
  simp [fetch, loadW_of_misaligned s h hd]

end Sys2Proof.Machine
end

