-- ==== Sys2Proof/Laws/Exec.lean ====
section
/-! SUPPORT. The meanings, inverted: everything an instruction can do, once, so that no later proof unfolds `execWith`
or `exec` (40_cycle.md R116, R120). -/

namespace Sys2Proof.Machine

/-! ## The two dispatches agree at the default parameters -/

/-- `exec` is `execWith` at the default parameters. -/
theorem exec_eq_execWith (i : Instr) (s : State) : exec i s = execWith Config.default i s := by
  cases i <;> rfl

/-! ## One equation per meaning, for a register field in 0..7 -/

theorem execWith_loadImmediate1 (c : Config) {rt : Byte} (imm : Half) (s : State) (h : rt.toNat < 8) :
    execWith c (.loadImmediate1 rt imm) s =
      .next (s.setReg ⟨rt.toNat, h⟩ (withLowHalf (s.getReg ⟨rt.toNat, h⟩) imm)) := by
  simp only [execWith, execLoadImmediate1, withTarget_of_lt s _ h]

theorem execWith_loadImmediate2 (c : Config) {rt : Byte} (imm : Half) (s : State) (h : rt.toNat < 8) :
    execWith c (.loadImmediate2 rt imm) s =
      .next (s.setReg ⟨rt.toNat, h⟩ (withHighHalf (s.getReg ⟨rt.toNat, h⟩) imm)) := by
  simp only [execWith, execLoadImmediate2, withTarget_of_lt s _ h]

theorem execWith_mov (c : Config) {rt : Byte} (rs : BitVec 3) (s : State) (h : rt.toNat < 8) :
    execWith c (.mov rt rs) s =
      .next (s.setReg ⟨rt.toNat, h⟩ (s.getReg (sourceReg rs))) := by
  simp only [execWith, execMov, withTarget_of_lt s _ h]

theorem execWith_add (c : Config) {rt : Byte} (rs : BitVec 3) (s : State) (h : rt.toNat < 8) :
    execWith c (.add rt rs) s =
      .next (writeAlu ⟨rt.toNat, h⟩ (s.getReg ⟨rt.toNat, h⟩) (s.getReg (sourceReg rs))
        (s.getReg ⟨rt.toNat, h⟩ + s.getReg (sourceReg rs)) s) := by
  simp only [execWith, execAdd, withTarget_of_lt s _ h]

theorem execWith_sub (c : Config) {rt : Byte} (rs : BitVec 3) (s : State) (h : rt.toNat < 8) :
    execWith c (.sub rt rs) s =
      .next (writeAlu ⟨rt.toNat, h⟩ (s.getReg ⟨rt.toNat, h⟩) (s.getReg (sourceReg rs))
        (s.getReg ⟨rt.toNat, h⟩ - s.getReg (sourceReg rs)) s) := by
  simp only [execWith, execSub, withTarget_of_lt s _ h]

theorem execWith_mul (c : Config) {rt : Byte} (rs : BitVec 3) (s : State) (h : rt.toNat < 8) :
    execWith c (.mul rt rs) s =
      .next (writeAlu ⟨rt.toNat, h⟩ (s.getReg ⟨rt.toNat, h⟩) (s.getReg (sourceReg rs))
        (s.getReg ⟨rt.toNat, h⟩ * s.getReg (sourceReg rs)) s) := by
  simp only [execWith, execMul, withTarget_of_lt s _ h]

theorem execWith_jnz (c : Config) {rt : Byte} (target : Half) (s : State) (h : rt.toNat < 8) :
    execWith c (.jnz rt target) s =
      if branchTaken (s.getReg ⟨rt.toNat, h⟩) then .next (s.jumpTo target) else .next s := by
  simp only [execWith, execJnz, withTarget_of_lt s _ h]

theorem execWith_loadDirect {c : Config} {rt : Byte} {addr : Half} (s : State) (h : rt.toNat < 8)
    (ha : Accepts c (directAddress addr)) :
    execWith c (.loadDirect rt addr) s =
      .next ((s.latchAccess c (directAddress addr) (s.mem.readWord (directAddress addr))).setReg ⟨rt.toNat, h⟩
        (s.mem.readWord (directAddress addr))) := by
  simp only [execWith, execLoadDirectWith, withTarget_of_lt s _ h, loadW_of_accepts s ha, andThen_next]

theorem execWith_storeDirect {c : Config} {rt : Byte} {addr : Half} (s : State) (h : rt.toNat < 8)
    (ha : Accepts c (directAddress addr)) :
    execWith c (.storeDirect rt addr) s =
      .next (State.latchAccess c { s with mem := s.mem.writeWord (directAddress addr) (s.getReg ⟨rt.toNat, h⟩) }
        (directAddress addr) (s.getReg ⟨rt.toNat, h⟩)) := by
  simp only [execWith, execStoreDirectWith, withTarget_of_lt s _ h, storeW_of_accepts _ s ha]

/-- The pointer read of indirect addressing, where its cell can be read. -/
theorem loadPointer_of_accepts {c : Config} {cell : Half} (s : State) (h : Accepts c (pointerCell cell)) :
    loadPointer c cell s =
      .next (indirectAddress cell s, s.latchAccess c (pointerCell cell) (indirectAddress cell s)) :=
  loadW_of_accepts s h

theorem execWith_loadIndirect {c : Config} {rt : Byte} {cell : Half} {s : State} (h : rt.toNat < 8)
    (hc : Accepts c (pointerCell cell)) (hp : Accepts c (indirectAddress cell s)) :
    execWith c (.loadIndirect rt cell) s =
      .next ((s.latchAccess c (indirectAddress cell s) (s.mem.readWord (indirectAddress cell s))).setReg
        ⟨rt.toNat, h⟩ (s.mem.readWord (indirectAddress cell s))) := by
  simp only [execWith, execLoadIndirectWith]
  rw [withTarget_of_lt s _ h, loadPointer_of_accepts s hc, andThen_next, loadW_of_accepts _ hp]
  rfl

theorem execWith_storeIndirect {c : Config} {rt : Byte} {cell : Half} {s : State} (h : rt.toNat < 8)
    (hc : Accepts c (pointerCell cell)) (hp : Accepts c (indirectAddress cell s)) :
    execWith c (.storeIndirect rt cell) s =
      .next (State.latchAccess c { s with mem := s.mem.writeWord (indirectAddress cell s) (s.getReg ⟨rt.toNat, h⟩) }
        (indirectAddress cell s) (s.getReg ⟨rt.toNat, h⟩)) := by
  simp only [execWith, execStoreIndirectWith]
  rw [withTarget_of_lt s _ h, loadPointer_of_accepts s hc, andThen_next, storeW_of_accepts _ _ hp]
  rfl

/-! ## Every effect, over all instructions -/

/-- The effects an instruction may have, on the state the fetch leaves. -/
inductive ExecEffect (c : Config) (i : Instr) (s : State) : State → Prop where
  /-- Nothing: HALT, NOP, a JNZ not taken. -/
  | nothing : ExecEffect c i s s
  /-- A register write without a data access. -/
  | reg (r : Fin 8) (v : Word) (hr : i.targetField.map BitVec.toNat = some r.val) : ExecEffect c i s (s.setReg r v)
  /-- A register write with the latches of a data access. -/
  | load (r : Fin 8) (a v : Word) (hr : i.targetField.map BitVec.toNat = some r.val) :
      ExecEffect c i s ((s.latchAccess c a v).setReg r v)
  /-- A word store, at the address the instruction computes. -/
  | store (a v : Word) (ha : Accepts c a)
      (hi : (∃ rt addr, i = .storeDirect rt addr ∧ a = directAddress addr) ∨
        ∃ rt cell, i = .storeIndirect rt cell ∧ a = indirectAddress cell s) :
      ExecEffect c i s (State.latchAccess c { s with mem := s.mem.writeWord a v } a v)
  /-- A jump: JMP, or a JNZ whose register is not 0. -/
  | jump (d : Half)
      (hj : i = .jmp d ∨ ∃ rt : Byte, ∃ h : rt.toNat < 8, i = .jnz rt d ∧ s.getReg ⟨rt.toNat, h⟩ ≠ 0) :
      ExecEffect c i s (s.jumpTo d)

/-- No effect touches `ir`, so the word a step executed can be read from the state it leaves (R29). -/
theorem ExecEffect.ir_eq {c : Config} {i : Instr} {s t : State} (h : ExecEffect c i s t) : t.ir = s.ir := by
  cases h <;> rfl

/-- The errors an instruction may raise, with the state it leaves (60_exceptions.md R184, R186). -/
inductive ExecError (c : Config) (i : Instr) (s : State) : Fault → Prop where
  /-- An ill-formed instruction term. -/
  | register (rt : Byte) (hi : i.targetField = some rt) (hr : ¬ rt.toNat < 8) :
      ExecError c i s (.outOfRangeRegister rt s)
  /-- A direct address beyond the cap. -/
  | direct (rt : Byte) (addr : Half) (hi : i = .loadDirect rt addr ∨ i = .storeDirect rt addr)
      (ha : ¬ Reaches c (directAddress addr)) : ExecError c i s (.addressOverflow (directAddress addr) s)
  /-- A pointer cell beyond the cap. -/
  | cell (rt : Byte) (cell : Half) (hi : i = .loadIndirect rt cell ∨ i = .storeIndirect rt cell)
      (hc : ¬ Reaches c (pointerCell cell)) : ExecError c i s (.addressOverflow (pointerCell cell) s)
  /-- A pointer past the last word of memory, or beyond the cap. -/
  | pointer (rt : Byte) (cell : Half) (hi : i = .loadIndirect rt cell ∨ i = .storeIndirect rt cell)
      (hp : ¬ Reaches c (indirectAddress cell s)) :
      ExecError c i s
        (.addressOverflow (indirectAddress cell s) (s.latchAccess c (pointerCell cell) (indirectAddress cell s)))

/-- Everything a body can answer: an effect, an error, or the refusal of a misaligned access. -/
inductive ExecAnswer (c : Config) (i : Instr) (s : State) : Result State → Prop where
  | next {t : State} (h : ExecEffect c i s t) : ExecAnswer c i s (.next t)
  | fault {f : Fault} (h : ExecError c i s f) : ExecAnswer c i s (.fault f)
  | refused (a : Word) (h : ¬ c.alignment ∣ a.toNat) : ExecAnswer c i s (.refused (.misalignedAccess a))

/-- The register check adds only its own error. -/
theorem execAnswer_withTarget {c : Config} {i : Instr} {s : State} {rt : Byte} {body : Fin 8 → Result State}
    (hi : i.targetField = some rt) (hb : ∀ h : rt.toNat < 8, ExecAnswer c i s (body ⟨rt.toNat, h⟩)) :
    ExecAnswer c i s (withTarget rt s body) := by
  by_cases hr : rt.toNat < 8
  · rw [withTarget_of_lt s _ hr]; exact hb hr
  · rw [withTarget_of_ge s _ hr]; exact .fault (.register rt hi hr)

/-- Every answer of `execWith`, over all instructions. -/
theorem execWith_answer (c : Config) (i : Instr) (s : State) : ExecAnswer c i s (execWith c i s) := by
  cases i with
  | halt => exact .next .nothing
  | nop => exact .next .nothing
  | loadImmediate1 rt imm =>
    simp only [execWith, execLoadImmediate1]
    exact execAnswer_withTarget rfl fun _ => .next (.reg _ _ rfl)
  | loadImmediate2 rt imm =>
    simp only [execWith, execLoadImmediate2]
    exact execAnswer_withTarget rfl fun _ => .next (.reg _ _ rfl)
  | loadDirect rt addr =>
    simp only [execWith, execLoadDirectWith]
    refine execAnswer_withTarget rfl fun _ => ?_
    rcases loadW_cases c (directAddress addr) s with ⟨_, e⟩ | ⟨h, e⟩ | ⟨h, e⟩ <;> rw [e]
    · exact .next (.load _ _ _ rfl)
    · exact .fault (.direct rt addr (.inl rfl) h)
    · exact .refused _ h
  | storeDirect rt addr =>
    simp only [execWith, execStoreDirectWith]
    refine execAnswer_withTarget rfl fun _ => ?_
    rcases storeW_cases c (directAddress addr) (s.getReg _) s with ⟨h, e⟩ | ⟨h, e⟩ | ⟨h, e⟩ <;> rw [e]
    · exact .next (.store _ _ h (.inl ⟨rt, addr, rfl, rfl⟩))
    · exact .fault (.direct rt addr (.inr rfl) h)
    · exact .refused _ h
  | loadIndirect rt cell =>
    simp only [execWith, execLoadIndirectWith]
    refine execAnswer_withTarget rfl fun _ => ?_
    rcases loadW_cases c (pointerCell cell) s with ⟨_, e⟩ | ⟨h, e⟩ | ⟨h, e⟩ <;> rw [loadPointer, e]
    · rw [andThen_next]
      dsimp only
      rcases loadW_cases c (indirectAddress cell s) (s.latchAccess c (pointerCell cell) (indirectAddress cell s)) with
        ⟨_, e⟩ | ⟨h, e⟩ | ⟨h, e⟩ <;> rw [← indirectAddress, e]
      · exact .next (.load _ _ _ rfl)
      · exact .fault (.pointer rt cell (.inl rfl) h)
      · exact .refused _ h
    · exact .fault (.cell rt cell (.inl rfl) h)
    · exact .refused _ h
  | storeIndirect rt cell =>
    simp only [execWith, execStoreIndirectWith]
    refine execAnswer_withTarget rfl fun _ => ?_
    rcases loadW_cases c (pointerCell cell) s with ⟨_, e⟩ | ⟨h, e⟩ | ⟨h, e⟩ <;> rw [loadPointer, e]
    · rw [andThen_next]
      dsimp only
      rcases storeW_cases c (indirectAddress cell s) (s.getReg _)
        (s.latchAccess c (pointerCell cell) (indirectAddress cell s)) with
        ⟨h, e⟩ | ⟨h, e⟩ | ⟨h, e⟩ <;> rw [← indirectAddress, e]
      · exact .next (.store _ _ h (.inr ⟨rt, cell, rfl, rfl⟩))
      · exact .fault (.pointer rt cell (.inr rfl) h)
      · exact .refused _ h
    · exact .fault (.cell rt cell (.inr rfl) h)
    · exact .refused _ h
  | mov rt rs =>
    simp only [execWith, execMov]
    exact execAnswer_withTarget rfl fun _ => .next (.reg _ _ rfl)
  | add rt rs =>
    simp only [execWith, execAdd]
    exact execAnswer_withTarget rfl fun _ => .next (.reg _ _ rfl)
  | sub rt rs =>
    simp only [execWith, execSub]
    exact execAnswer_withTarget rfl fun _ => .next (.reg _ _ rfl)
  | mul rt rs =>
    simp only [execWith, execMul]
    exact execAnswer_withTarget rfl fun _ => .next (.reg _ _ rfl)
  | jmp target => exact .next (.jump _ (.inl rfl))
  | jnz rt target =>
    simp only [execWith, execJnz]
    refine execAnswer_withTarget rfl fun hr => ?_
    by_cases hb : branchTaken (s.getReg ⟨rt.toNat, hr⟩) = true
    · rw [if_pos hb]; exact .next (.jump _ (.inr ⟨rt, hr, rfl, (branchTaken_iff _).1 hb⟩))
    · rw [if_neg hb]; exact .next .nothing

/-- Every next state of a body is one of the effects. -/
theorem execWith_effect {c : Config} {i : Instr} {s t : State} (h : execWith c i s = .next t) : ExecEffect c i s t := by
  cases h ▸ execWith_answer c i s with
  | next h => exact h

/-- Every fault of a body is one of the errors. -/
theorem execWith_error {c : Config} {i : Instr} {s : State} {f : Fault} (h : execWith c i s = .fault f) :
    ExecError c i s f := by
  cases h ▸ execWith_answer c i s with
  | fault h => exact h

/-- Every refusal of a body is of a misaligned access. -/
theorem execWith_refusal {c : Config} {i : Instr} {s : State} {n : Refusal} (h : execWith c i s = .refused n) :
    ∃ a : Word, n = .misalignedAccess a ∧ ¬ c.alignment ∣ a.toNat := by
  cases h ▸ execWith_answer c i s with
  | refused a hd => exact ⟨a, rfl, hd⟩

/-- Every next state of a meaning is one of the effects. -/
theorem exec_effect {i : Instr} {s t : State} (h : exec i s = .next t) : ExecEffect Config.default i s t :=
  execWith_effect (exec_eq_execWith i s ▸ h)

end Sys2Proof.Machine
end

