-- ==== Sys2Proof/Laws/PerInstr.lean ====
section
/-! SUPPORT. Families of statements made per instruction (LAWS.json "per_instruction"). -/

namespace Sys2Proof.Laws.EncodedFields

/-- The fields of an encoded instruction (30_encoding.md R92): the opcode is its operation's under any map, and a
well-formed instruction's register field is one the decoder accepts. -/
def Statement (i : Instr) : Prop :=
  (∀ m : OpcodeMap, opcodeField (encodeWith m i) = m i.mnemonic) ∧
    (i.wf = true → ∀ m : OpcodeMap, registerFieldOk (registerField (encodeWith m i)) = true)

theorem halt : Statement .halt := by
  simp [Statement, encodeWith, Instr.encodedRegister, registerFieldOk]

theorem nop : Statement .nop := by
  simp [Statement, encodeWith, Instr.encodedRegister, registerFieldOk]

theorem loadImmediate1 (rt : Byte) (imm : Half) : Statement (.loadImmediate1 rt imm) := by
  simp [Statement, encodeWith, Instr.encodedRegister, Instr.wf, Instr.targetField]

theorem loadImmediate2 (rt : Byte) (imm : Half) : Statement (.loadImmediate2 rt imm) := by
  simp [Statement, encodeWith, Instr.encodedRegister, Instr.wf, Instr.targetField]

theorem loadDirect (rt : Byte) (addr : Half) : Statement (.loadDirect rt addr) := by
  simp [Statement, encodeWith, Instr.encodedRegister, Instr.wf, Instr.targetField]

theorem storeDirect (rt : Byte) (addr : Half) : Statement (.storeDirect rt addr) := by
  simp [Statement, encodeWith, Instr.encodedRegister, Instr.wf, Instr.targetField]

theorem loadIndirect (rt : Byte) (cell : Half) : Statement (.loadIndirect rt cell) := by
  simp [Statement, encodeWith, Instr.encodedRegister, Instr.wf, Instr.targetField]

theorem storeIndirect (rt : Byte) (cell : Half) : Statement (.storeIndirect rt cell) := by
  simp [Statement, encodeWith, Instr.encodedRegister, Instr.wf, Instr.targetField]

theorem mov (rt : Byte) (rs : BitVec 3) : Statement (.mov rt rs) := by
  simp [Statement, encodeWith, Instr.encodedRegister, Instr.wf, Instr.targetField]

theorem add (rt : Byte) (rs : BitVec 3) : Statement (.add rt rs) := by
  simp [Statement, encodeWith, Instr.encodedRegister, Instr.wf, Instr.targetField]

theorem sub (rt : Byte) (rs : BitVec 3) : Statement (.sub rt rs) := by
  simp [Statement, encodeWith, Instr.encodedRegister, Instr.wf, Instr.targetField]

theorem mul (rt : Byte) (rs : BitVec 3) : Statement (.mul rt rs) := by
  simp [Statement, encodeWith, Instr.encodedRegister, Instr.wf, Instr.targetField]

theorem jmp (target : Half) : Statement (.jmp target) := by
  simp [Statement, encodeWith, Instr.encodedRegister, registerFieldOk]

theorem jnz (rt : Byte) (target : Half) : Statement (.jnz rt target) := by
  simp [Statement, encodeWith, Instr.encodedRegister, Instr.wf, Instr.targetField]

end Sys2Proof.Laws.EncodedFields
end

