-- ==== Sys2Proof/Laws/Step.lean ====
section
/-! SUPPORT. The step, inverted: what it answers at a fetchable `pc` is the dispatch of the state the fetch leaves
(40_cycle.md R110 to R115). -/

namespace Sys2Proof.Machine

/-! ## The dispatch, one equation per verdict of the decoder -/

theorem dispatchWith_of_instr {m : OpcodeMap} {bodies : Instr → State → Result State} {s : State} {i : Instr}
    (h : decodeWith m s.ir = .instr i) : dispatchWith m bodies s = bodies i s := by
  simp [dispatchWith, h]

theorem dispatchWith_of_outOfRange {m : OpcodeMap} {bodies : Instr → State → Result State} {s : State} {r : Byte}
    (h : decodeWith m s.ir = .outOfRangeRegister r) :
    dispatchWith m bodies s = .fault (.outOfRangeRegister r s) := by
  simp [dispatchWith, h, raise]

theorem dispatchWith_of_unknown {m : OpcodeMap} {bodies : Instr → State → Result State} {s : State} {o : Byte}
    (h : decodeWith m s.ir = .unknownOpcode o) : dispatchWith m bodies s = .fault (.unknownOpcode o s) := by
  simp [dispatchWith, h, raise]

/-! ## The step -/

/-- The machine of the fixed names is the one at the default parameters. -/
theorem step_eq_stepWith (s : State) : step s = stepWith Config.default s := by
  have : exec = execWith Config.default := funext fun i => funext fun s => exec_eq_execWith i s
  simp only [step, stepWith, this]

/-- Where a word can be fetched the step is the dispatch after the fetch. -/
theorem stepWith_of_fetchable {c : Config} {s : State} (h : s.fetchable c) :
    stepWith c s = dispatchWith c.opcodeMap (execWith c) (s.afterFetch c) := by
  simp [stepWith, cycle, fetch_of_fetchable h]

theorem stepWith_of_not_reaches {c : Config} {s : State} (h : ¬ Reaches c s.pc) :
    stepWith c s = .fault (.addressOverflow s.pc s) := by
  simp [stepWith, cycle, fetch_of_not_reaches h]

theorem stepWith_of_misaligned {c : Config} {s : State} (h : Reaches c s.pc) (hd : ¬ c.alignment ∣ s.pc.toNat) :
    stepWith c s = .refused (.misalignedAccess s.pc) := by
  simp [stepWith, cycle, fetch_of_misaligned h hd]

/-- Everything a step can be: the dispatch after a fetch, the fetch's error, or its refusal. -/
theorem stepWith_cases (c : Config) (s : State) :
    (s.fetchable c ∧ stepWith c s = dispatchWith c.opcodeMap (execWith c) (s.afterFetch c)) ∨
      (¬ Reaches c s.pc ∧ stepWith c s = .fault (.addressOverflow s.pc s)) ∨
      (¬ c.alignment ∣ s.pc.toNat ∧ stepWith c s = .refused (.misalignedAccess s.pc)) := by
  by_cases h : Reaches c s.pc
  · by_cases hd : c.alignment ∣ s.pc.toNat
    · exact .inl ⟨⟨h, hd⟩, stepWith_of_fetchable ⟨h, hd⟩⟩
    · exact .inr (.inr ⟨hd, stepWith_of_misaligned h hd⟩)
  · exact .inr (.inl ⟨h, stepWith_of_not_reaches h⟩)

/-- A step that answers a next state fetched a word that decodes, and ran its body. -/
theorem stepWith_eq_next {c : Config} {s t : State} (h : stepWith c s = .next t) :
    s.fetchable c ∧ ∃ i, decodeWith c.opcodeMap s.fetchWord = .instr i ∧ execWith c i (s.afterFetch c) = .next t := by
  rcases stepWith_cases c s with ⟨hf, e⟩ | ⟨-, e⟩ | ⟨-, e⟩ <;> rw [e] at h
  · refine ⟨hf, ?_⟩
    unfold dispatchWith at h
    split at h
    · next i hi => exact ⟨i, hi, h⟩
    · cases h
    · cases h
  · cases h
  · cases h

/-- The boolean of a successful step, from the word it fetched (R117; log 13). -/
theorem halted_of_stepWith_eq_next {c : Config} {s t : State} (h : stepWith c s = .next t) :
    t.halted c.opcodeMap = (opcodeField s.fetchWord == c.opcodeMap .HALT) := by
  obtain ⟨-, i, -, he⟩ := stepWith_eq_next h
  simp [State.halted, (execWith_effect he).ir_eq]

end Sys2Proof.Machine
end

