-- ==== Sys2Proof/Tests/Slice0.lean ====
section
/-! SUPPORT. The model's own tests. Expected results are the spec's: "V<n>", "S<n>", "P<n>" name the vector of
spec/95_test_vectors.md, "R<n>" an example of a rule. Words are written out bit by bit from 30_encoding.md R86. The last
part shows, for every obligation with hypotheses, a state and operands that meet them. -/

namespace Sys2Proof.Tests

open Sys2Proof Sys2Proof.Machine

/-! ## Helpers -/

/-- The reset state with `pc`, some registers and some words of memory set. -/
def start (pc : Word) (rs : List (Fin 8 × Word)) (ws : List (Word × Word)) : State :=
  ws.foldl (fun s p => { s with mem := s.mem.writeWord p.1 p.2 })
    (rs.foldl (fun s p => s.setReg p.1 p.2) { State.reset with pc := pc })

/-- The outcome is a next state of which `p` holds. -/
def nextHas (o : Host.Outcome State Fault Refusal) (p : State → Bool) : Bool :=
  match o with
  | .next t => p t
  | .fault _ => false
  | .refused _ => false

/-- The outcome is a fault of which `p` holds. -/
def faultHas (o : Host.Outcome State Fault Refusal) (p : Fault → Bool) : Bool :=
  match o with
  | .next _ => false
  | .fault f => p f
  | .refused _ => false

theorem exists_of_nextHas {o : Host.Outcome State Fault Refusal} {p : State → Bool} (h : nextHas o p = true) :
    ∃ t, o = .next t ∧ p t = true := by
  cases o with
  | next t => exact ⟨t, rfl, h⟩
  | fault f => cases h
  | refused r => cases h

theorem exists_of_faultHas {o : Host.Outcome State Fault Refusal} {p : Fault → Bool} (h : faultHas o p = true) :
    ∃ f, o = .fault f ∧ p f = true := by
  cases o with
  | next t => cases h
  | fault f => exact ⟨f, rfl, h⟩
  | refused r => cases h

/-! ## Well-formedness: an ill-formed term for the one check there is, refused, and the boundary accepted -/

theorem test_wf_refuses_register_8 : (Instr.mov 8 0).wf = false := by decide

theorem test_wf_refuses_register_255 : (Instr.jnz 255 0).wf = false := by decide

theorem test_wf_accepts_register_7 : (Instr.storeIndirect 7 0xFFFF).wf = true := by decide

theorem test_wf_needs_no_register : (Instr.jmp 0xFFFF).wf = true ∧ Instr.halt.wf = true := by decide

/-! ## Decoding: one word per constructor, `dddddddddddddddd rrrrrrrr oooooooo` -/

/-- V18: ignored fields may be anything. -/
theorem test_decode_halt : decode 0b00010010001101000000001100000000#32 = .instr .halt := by decide

/-- V32. -/
theorem test_decode_nop : decode 0b00000000000000000000000000000001#32 = .instr .nop := by decide

/-- V11. -/
theorem test_decode_loadImmediate1 :
    decode 0b10111110111011110000011000000010#32 = .instr (.loadImmediate1 6 0xBEEF) := by decide

/-- V43. -/
theorem test_decode_loadImmediate2 :
    decode 0b00000100000000110000000000000011#32 = .instr (.loadImmediate2 0 0x0403) := by decide

/-- V10. -/
theorem test_decode_loadDirect :
    decode 0b00000001000000000000000100000100#32 = .instr (.loadDirect 1 0x0100) := by decide

/-- V53. -/
theorem test_decode_storeDirect :
    decode 0b00000001000001000000000100000101#32 = .instr (.storeDirect 1 0x0104) := by decide

/-- V54. -/
theorem test_decode_loadIndirect :
    decode 0b00000011000000000000001100000110#32 = .instr (.loadIndirect 3 0x0300) := by decide

/-- V56. -/
theorem test_decode_storeIndirect :
    decode 0b00000011000001000000001100000111#32 = .instr (.storeIndirect 3 0x0304) := by decide

/-- V13: `dop = 9` selects R1. -/
theorem test_decode_mov : decode 0b00000000000010010000000100001000#32 = .instr (.mov 1 1) := by decide

/-- V81: `dop = 0xFFF9` selects R1. -/
theorem test_decode_add : decode 0b11111111111110010000000100001001#32 = .instr (.add 1 1) := by decide

/-- V67. -/
theorem test_decode_sub : decode 0b00000000000000100000000000001010#32 = .instr (.sub 0 2) := by decide

/-- V73. -/
theorem test_decode_mul : decode 0b00000000000000000000000100001011#32 = .instr (.mul 1 0) := by decide

/-- V90. -/
theorem test_decode_jmp : decode 0b00000000000100000000000000001100#32 = .instr (.jmp 0x0010) := by decide

/-- V12. -/
theorem test_decode_jnz : decode 0b11111111111111110000011100001101#32 = .instr (.jnz 7 0xFFFF) := by decide

/-- V14, V15, V16, V17: the two rejections and their priority. -/
theorem test_decode_rejects :
    decode 0x0000010E#32 = .unknownOpcode 0x0E ∧ decode 0x00050802#32 = .outOfRangeRegister 8 ∧
      decode 0x0000FFFF#32 = .outOfRangeRegister 255 ∧ decode 0x00000900#32 = .outOfRangeRegister 9 := by decide

/-- S11: the bytes of `STORE_DIRECT R1,0x0100`, both ways; and three bytes are no instruction (R80). -/
theorem test_bytes :
    encodeBytes (.storeDirect 1 0x0100) = [0x05, 0x01, 0x00, 0x01] ∧
      decodeBytes [0x05, 0x01, 0x00, 0x01, 0xAA] = .decoded (.instr (.storeDirect 1 0x0100)) [0xAA] ∧
      decodeBytes [0x05, 0x01, 0x00] = .truncated [0x05, 0x01, 0x00] := by decide

/-- R161's word of `MOV R1,R0` and P5's of `JMP 0x004C`. -/
theorem test_encode : encode (.mov 1 0) = 0x00000108 ∧ encode (.jmp 0x004C) = 0x004C000C := by decide

/-! ## Memory -/

/-- V4 and V5. -/
theorem test_misaligned_word :
    (Memory.writeWord [] 0x101 0xAABBCCDD).readWord 0x100 = 0xBBCCDD00 ∧
      (Memory.writeWord [] 0x101 0xAABBCCDD).readWord 0x102 = 0x00AABBCC ∧
      (Memory.writeWord [] 0x101 0xAABBCCDD).readWord 0x104 = 0x000000AA := by decide

/-- V2: and writing zeros removes the entries again (log 12). -/
theorem test_canonical_form :
    Memory.writeWord [] 0x100 0x04030201 = [(0x100, 1), (0x101, 2), (0x102, 3), (0x103, 4)] ∧
      Memory.writeWord (Memory.writeWord [] 0x100 0x04030201) 0x100 0 = [] := by decide

/-- V6 and V8: the last word of memory can be written, the one past it cannot. -/
theorem test_top_of_memory :
    nextHas (storeW Config.default 0xFFFFFFFC 0x11223344 State.reset) (fun t => t.mem.readByte 0xFFFFFFFF == 0x11) = true ∧
      storeW Config.default 0xFFFFFFFF 1 State.reset = .fault (.addressOverflow 0xFFFFFFFF State.reset) := by
  exact ⟨by decide, rfl⟩

/-! ## One step of each instruction -/

/-- V30: HALT at 8. -/
theorem test_halt :
    nextHas (step (start 8 [(1, 0x67452301)] [])) (fun t =>
      t == { start 0xC [(1, 0x67452301)] [] with mar := 8 } && t.halted opcodeMap) = true := by decide

/-- V19: NOP at the top wraps `pc`. -/
theorem test_nop_wraps :
    nextHas (step (start 0xFFFFFFFC [] [(0xFFFFFFFC, 0x00000001)])) (fun t =>
      t.pc == 0 && t.mar == 0xFFFFFFFC && !t.halted opcodeMap) = true := by decide

/-- V41: the high half is kept. -/
theorem test_loadImmediate1 :
    nextHas (step (start 0 [(0, 0xAABBCCDD)] [(0, 0x02010002)])) (fun t => t.getReg 0 == 0xAABB0201) = true := by
  decide

/-- V42: no sign extension. -/
theorem test_loadImmediate1_unsigned :
    nextHas (step (start 0 [] [(0, 0xFFFF0002)])) (fun t => t.getReg 0 == 0x0000FFFF) = true := by decide

/-- V44. -/
theorem test_loadImmediate2 :
    nextHas (step (start 0 [(4, 0x00001234)] [(0, 0xFFFF0403)])) (fun t => t.getReg 4 == 0xFFFF1234) = true := by
  decide

/-- V50, with the latches. -/
theorem test_loadDirect :
    nextHas (step (start 0 [] [(0, 0x01000104), (0x100, 0x67452301)])) (fun t =>
      t.getReg 1 == 0x67452301 && t.mar == 0x100 && t.mbr == 0x67452301 && t.pc == 4) = true := by decide

/-- V52: no wrap at 64 KiB. -/
theorem test_loadDirect_past_64K :
    nextHas (step (start 0 [] [(0, 0xFFFF0304), (0xFFFF, 0x44332211)])) (fun t => t.getReg 3 == 0x44332211) = true := by
  decide

/-- V53. -/
theorem test_storeDirect :
    nextHas (step (start 4 [(1, 0x67452301)] [(4, 0x01040105)])) (fun t =>
      t.mem.readWord 0x104 == 0x67452301 && t.mem.readByte 0x104 == 0x01 && t.mar == 0x104 && t.mbr == 0x67452301)
      = true := by decide

/-- V54. -/
theorem test_loadIndirect :
    nextHas (step (start 0 [] [(0, 0x03000306), (0x300, 0x76543210), (0x76543210, 0xCAFEBABE)])) (fun t =>
      t.getReg 3 == 0xCAFEBABE && t.mar == 0x76543210 && t.mbr == 0xCAFEBABE) = true := by decide

/-- V55: a pointer cell nobody wrote points at 0. -/
theorem test_loadIndirect_unwritten_pointer :
    nextHas (step (start 0 [] [(0, 0x03000306)])) (fun t => t.getReg 3 == 0x03000306) = true := by decide

/-- V56. -/
theorem test_storeIndirect :
    nextHas (step (start 0 [(3, 0xCAFEBABE)] [(0, 0x03040307), (0x304, 0x67452300)])) (fun t =>
      t.mem.readWord 0x67452300 == 0xCAFEBABE && t.mem.readByte 0x67452300 == 0xBE && t.mar == 0x67452300) = true := by
  decide

/-- V57: the cell points at itself. -/
theorem test_storeIndirect_self :
    nextHas (step (start 0 [(1, 0x00000ABC)] [(0, 0x02000107), (0x200, 0x00000200)])) (fun t =>
      t.mem.readWord 0x200 == 0x00000ABC) = true := by decide

/-- V60. -/
theorem test_mov :
    nextHas (step (start 0 [(1, 0x11111111), (0, 0x04030201)] [(0, 0x00000108)])) (fun t =>
      t.getReg 1 == 0x04030201 && t.getReg 0 == 0x04030201) = true := by decide

/-- V62: wraps and sets no flag. -/
theorem test_add_wraps :
    nextHas (step (start 0 [(2, 0xFFFFFFFF), (3, 1)] [(0, 0x00030209)])) (fun t =>
      t.getReg 2 == 0 && t.getReg 3 == 1 && t.flags == Flags.clear) = true := by decide

/-- V64: the source is the target. -/
theorem test_add_same_register :
    nextHas (step (start 0 [(1, 0x80000001)] [(0, 0x00010109)])) (fun t => t.getReg 1 == 2) = true := by decide

/-- V69: target minus source. -/
theorem test_sub_borrows :
    nextHas (step (start 0 [(2, 0x55)] [(0, 0x0002000A)])) (fun t =>
      t.getReg 0 == 0xFFFFFFAB && t.flags == Flags.clear) = true := by decide

/-- V72. -/
theorem test_sub :
    nextHas (step (start 0 [(1, 0x12345678), (2, 0x9ABCDEF0)] [(0, 0x0002010A)])) (fun t =>
      t.getReg 1 == 0x77777788) = true := by decide

/-- V77. -/
theorem test_mul :
    nextHas (step (start 0 [(1, 0x12345678), (2, 0x9ABCDEF0)] [(0, 0x0002010B)])) (fun t =>
      t.getReg 1 == 0x242D2080) = true := by decide

/-- V91: the target is zero-extended and need not be aligned. -/
theorem test_jmp :
    nextHas (step (start 0 [] [(0, 0xFFFF000C)])) (fun t => t.pc == 0x0000FFFF && t.mar == 0 && t.ir == 0xFFFF000C)
      = true := by decide

/-- V96: any value but 0 takes the branch. -/
theorem test_jnz_taken :
    nextHas (step (start 0 [(7, 0x80000000)] [(0, 0x0040070D)])) (fun t => t.pc == 0x40) = true := by decide

/-- V95. -/
theorem test_jnz_not_taken :
    nextHas (step (start 0x14 [] [(0x14, 0x000C000D)])) (fun t => t.pc == 0x18) = true := by decide

/-! ## Errors -/

/-- V20: a failing fetch changes nothing. -/
theorem test_fetch_overflow :
    step (start 0xFFFFFFFD [] []) = .fault (.addressOverflow 0xFFFFFFFD (start 0xFFFFFFFD [] [])) := by rfl

/-- V100. -/
theorem test_unknown_opcode :
    faultHas (step (start 4 [(1, 0x1234)] [(4, 0x0000010E)])) (fun f =>
      f.kind == .unknownOpcode && f.info == 0x0E && f.after.pc == 8 && f.after.ir == 0x0000010E &&
        f.after.mar == 4 && f.after.mbr == 0x0000010E && f.after.rop == 1 && f.after.dop == 0 &&
        f.after.getReg 1 == 0x1234) = true := by decide

/-- V101: the index is not reduced modulo 8. -/
theorem test_out_of_range_register :
    faultHas (step (start 4 [(1, 0x1234)] [(4, 0x00050802)])) (fun f =>
      f.kind == .outOfRangeRegister && f.info == 8 && f.after.pc == 8 && f.after.getReg 0 == 0) = true := by decide

/-- V58: LOAD_INDIRECT through a pointer past the top. -/
theorem test_loadIndirect_overflow :
    faultHas (step (start 4 [(2, 0x1111)] [(4, 0x00800206), (0x80, 0xFFFFFFFE)])) (fun f =>
      f.kind == .addressOverflow && f.info == 0xFFFFFFFE && f.after.getReg 2 == 0x1111 && f.after.pc == 8 &&
        f.after.mar == 0x80 && f.after.mbr == 0xFFFFFFFE) = true := by decide

/-- V59: STORE_INDIRECT through a pointer past the top writes nothing. -/
theorem test_storeIndirect_overflow :
    faultHas (step (start 4 [(2, 0x1111)] [(4, 0x00800207), (0x80, 0xFFFFFFFD)])) (fun f =>
      f.info == 0xFFFFFFFD && f.after.mem == (start 4 [] [(4, 0x00800207), (0x80, 0xFFFFFFFD)]).mem) = true := by decide

/-- R59: under a cap of 0x1000 bytes the last word below it loads and the next address faults. -/
theorem test_cap_at_the_step :
    nextHas (stepWith { Config.default with addrCap := some 0x1000 } (start 0 [] [(0, 0x0FFC0104)])) (fun t =>
      t.mar == 0xFFC && t.pc == 4) = true ∧
    faultHas (stepWith { Config.default with addrCap := some 0x1000 } (start 0 [] [(0, 0x0FFD0104)])) (fun f =>
      f.kind == .addressOverflow && f.info == 0xFFD && f.after.pc == 4) = true := by decide

/-- R59, R207: under a cap of 0x1000 bytes PEEK's check raises at 0x1000, where the raw byte 0 would be HALT's. -/
theorem test_peek_at_the_cap :
    (match runPeek { Config.default with addrCap := some 0x1000 } 0 (start 0x1000 [] []) with
      | .error f => f.kind == .addressOverflow && f.info == 0x1000
      | _ => false) = true := by decide

/-- V104: the driver goes on after an error. -/
theorem test_go_on_after_error :
    faultHas (step (start 4 [] [(4, 0x0000010E)])) (fun f =>
      nextHas (step f.after) (fun t => t.halted opcodeMap && t.pc == 0xC)) = true := by decide

/-! ## Witnesses: every obligation's hypotheses are met -/

/-- DecodeEncodeRoundTrip. -/
theorem witness_round_trip : Function.Injective opcodeMap ∧ (Instr.jnz 7 0xFFFF).wf = true :=
  ⟨opcodeMap_injective, by decide⟩

/-- ReencodingKeepsExactlyTheUsedBits: V81, whose dataOperand has ignored bits set. -/
theorem witness_reencoding : decodeWith opcodeMap 0xFFF90109#32 = .instr (.add 1 1) := by decide

/-- DecoderVerdicts: each clause, at the boundaries 8, 7 and 0x0E, 0x0D. -/
theorem witness_verdicts :
    7 < (registerField 0x0000080D#32).toNat ∧
      ((registerField 0x0000070E#32).toNat ≤ 7 ∧ opcodeMap.lookup (opcodeField 0x0000070E#32) = none) ∧
      ((registerField 0x0000070D#32).toNat ≤ 7 ∧ opcodeMap .JNZ = opcodeField 0x0000070D#32) := by decide

/-- DecoderVerdicts, UnknownOpcodeStopsTheStep, ErrorPriorityAndStateLeft: no operation has opcode 0x0E. -/
theorem witness_unknown : ∀ k, opcodeMap k ≠ opcodeField 0x0000070E#32 := by
  intro k
  cases k <;> decide

/-- OperandsOfEachInstruction, JmpSetsAbsoluteTarget: a JMP word whose register field is 7. -/
theorem witness_operands :
    Function.Injective opcodeMap ∧ (registerField 0x0020070C#32).toNat ≤ 7 ∧
      opcodeField 0x0020070C#32 = opcodeMap .JMP := ⟨opcodeMap_injective, by decide, by decide⟩

/-- InstructionWordLayout: the bytes of V10. -/
theorem witness_layout :
    let mem : Memory := [(0, 0x04), (1, 0x01), (3, 0x01)]
    mem.readByte (0#32).toNat = 0x04 ∧ mem.readByte (0#32 + 1).toNat = 0x01 ∧
      mem.readByte (0#32 + 2).toNat = (0x0100#16).extractLsb' 0 8 ∧
      mem.readByte (0#32 + 3).toNat = (0x0100#16).extractLsb' 8 8 := by
  decide

/-- StoreWordThenLoadWord, WordWriteChangesFourBytes, WordReadCombinesFourBytes, CoreWordAccessLatchesOrRaises,
DriverOperations, LoaderPlacesTheEncoding: the last word of memory, and the first address past it. -/
theorem witness_bounds : (0xFFFFFFFC#32).toNat ≤ 0xFFFFFFFC ∧ 0xFFFFFFFC < (0xFFFFFFFD#32).toNat := by decide

/-- MisalignedReadOverlapsStoredWord: the last byte of the furthest overlap. -/
theorem witness_misaligned : 3 < 4 ∧ (0xFFFFFFF9#32).toNat + 3 ≤ 0xFFFFFFFC ∧ 3 + 3 ≥ 4 ∧ 0 + 3 < 4 := by decide

/-- EqualReadsAreEqualMemories: a memory with a byte at the last address. -/
theorem witness_wf :
    Memory.wf [(0, 1), (0xFFFFFFFF, 1)] ∧
      ∀ a, Memory.readByte [(0, 1), (0xFFFFFFFF, 1)] a = Memory.readByte [(0, 1), (0xFFFFFFFF, 1)] a :=
  ⟨by decide, fun _ => rfl⟩

/-- AddressCapBoundsAccesses: each clause beside its boundary, under a cap of 16. -/
theorem witness_cap :
    16 ≤ (16#32).toNat ∧ (15#32).toNat < 16 ∧ 16 ≤ (13#32).toNat + 3 ∧ (12#32).toNat + 3 < 16 := by decide

/-- A machine with a cap of 0x1000 bytes that requires aligned words and wraps. -/
def strict : Config :=
  { Config.default with addrCap := some 0x1000, alignment := 4, pastTop := .wrap }

/-- ParametersDecideWordAccesses: an access of each kind, beside the cap and the alignment. -/
theorem witness_parameters :
    (¬ ((0xFFFFFFFC < (0xFFC#32).toNat ∧ strict.pastTop = .raise) ∨
        ∃ cap, strict.addrCap = some cap ∧ cap ≤ (0xFFC#32).toNat + 3) ∧ strict.alignment ∣ (0xFFC#32).toNat) ∧
    (∃ cap, strict.addrCap = some cap ∧ cap ≤ (0xFFD#32).toNat + 3) ∧
    (0xFFFFFFFC < (0xFFFFFFFD#32).toNat ∧ Config.default.pastTop = .raise) ∧
    ¬ strict.alignment ∣ (0xFFA#32).toNat := by
  refine ⟨⟨?_, by decide⟩, ⟨0x1000, rfl, by decide⟩, ⟨by decide, rfl⟩, by decide⟩
  rintro (⟨h, -⟩ | ⟨cap, hc, h⟩)
  · exact absurd h (by decide)
  · cases hc
    exact absurd h (by decide)

/-- AddressCapBoundsTheStep: a `pc`, a direct address and a pointer at the first word beyond the cap. -/
theorem witness_cap_step :
    strict.addrCap = some 0x1000 ∧ 0x1000 ≤ (start 0xFFD [] []).pc.toNat + 3 ∧ 0x1000 ≤ (0xFFD#16).toNat + 3 ∧
      (0x80#16).toNat + 3 < 0x1000 ∧ strict.alignment ∣ (0x80#16).toNat ∧
      0x1000 ≤ (indirectAddress 0x80 (start 0 [] [(0x80, 0xFFD)])).toNat + 3 := by
  decide

/-- HaltHasNoEffectAndReportsTrue: V18's word, with ignored fields set. -/
theorem witness_halt :
    (start 0 [] [(0, 0x12340300)]).fetchable Config.default ∧
      opcodeField (start 0 [] [(0, 0x12340300)]).fetchWord = opcodeMap .HALT ∧
      (registerField (start 0 [] [(0, 0x12340300)]).fetchWord).toNat ≤ 7 :=
  ⟨(accepts_default _).2 (by decide), by decide, by decide⟩

/-- NopHasNoEffectAndReportsFalse: V19. -/
theorem witness_nop :
    Function.Injective Config.default.opcodeMap ∧
      (start 0xFFFFFFFC [] [(0xFFFFFFFC, 1)]).fetchable Config.default ∧
      opcodeField (start 0xFFFFFFFC [] [(0xFFFFFFFC, 1)]).fetchWord = opcodeMap .NOP ∧
      (registerField (start 0xFFFFFFFC [] [(0xFFFFFFFC, 1)]).fetchWord).toNat ≤ 7 :=
  ⟨opcodeMap_injective, (accepts_default _).2 (by decide), by decide, by decide⟩

/-- The result statements of the instructions with a target register: both ends of the range. -/
theorem witness_target : (0#8).toNat < 8 ∧ (7#8).toNat < 8 := by decide

/-- LoadIndirectLoadsThroughThePointer, StoreIndirectStoresThroughThePointer: a pointer to the
last word of memory. -/
theorem witness_pointer :
    (7#8).toNat < 8 ∧ ((start 0 [] [(0xFFFF, 0xFFFFFFFC)]).mem.readWord ((0xFFFF#16).setWidth 32)).toNat ≤ 0xFFFFFFFC ∧
      (indirectAddress 0xFFFF (start 0 [] [(0xFFFF, 0xFFFFFFFC)])).toNat ≤ 0xFFFFFFFC := by decide

/-- PointerPastTheTopFaults: the first pointer past it. -/
theorem witness_pointer_past :
    (7#8).toNat < 8 ∧ 0xFFFFFFFC < ((start 0 [] [(0x80, 0xFFFFFFFD)]).mem.readWord ((0x80#16).setWidth 32)).toNat := by
  decide

/-- JnzTestsTheRegister: both clauses. -/
theorem witness_jnz :
    (start 0 [(7, 1)] []).getReg ⟨(7#8).toNat, by decide⟩ ≠ 0 ∧
      (start 0 [] []).getReg ⟨(7#8).toNat, by decide⟩ = 0 := by decide

/-- IllFormedTargetRaises: the boundary. -/
theorem witness_ill_formed : (Instr.add 8 0).targetField = some 8 ∧ 7 < (8#8).toNat := by decide

/-- NoInstructionWritesFlagsOrPointers, OnlyStoresChangeMemory, StoreIsSeenByTheNextFetch: a direct store. -/
theorem witness_store_direct :
    ∃ t, exec (.storeDirect 1 0x0104) (start 4 [(1, 0x67452301)] []) = .next t ∧
      (t.mem.readWord 0x104 == 0x67452301) = true := exists_of_nextHas (by decide)

/-- OnlyStoresChangeMemory, StoreIsSeenByTheNextFetch: an indirect store. -/
theorem witness_store_indirect :
    ∃ t, exec (.storeIndirect 3 0x0304) (start 4 [(3, 0xCAFEBABE)] [(0x304, 0x67452300)]) = .next t ∧
      (t.mem.readWord 0x67452300 == 0xCAFEBABE) = true := exists_of_nextHas (by decide)

/-- OnlyStoresChangeMemory: an instruction that stores nothing. -/
theorem witness_no_store :
    (Instr.add 1 1).mnemonic ≠ .STORE_DIRECT ∧ (Instr.add 1 1).mnemonic ≠ .STORE_INDIRECT ∧
      ∃ t, exec (.add 1 1) (start 4 [(1, 1)] []) = .next t ∧ (t.getReg 1 == 2) = true :=
  ⟨by decide, by decide, exists_of_nextHas (by decide)⟩

/-- FetchSplitsTheWordAndAdvances: the last word that can be fetched. -/
theorem witness_fetchable : (start 0xFFFFFFFC [] []).fetchable Config.default := (accepts_default _).2 (by decide)

/-- StepRunsTheDecodedInstruction, both clauses: V21, a misaligned fetch. -/
theorem witness_step :
    (start 0x12 [] [(0x12, 0xABCD0702)]).fetchable Config.default ∧
      (start 0x12 [] [(0x12, 0xABCD0702)]).pc.toNat ≤ 0xFFFFFFFC ∧
      decode ((start 0x12 [] [(0x12, 0xABCD0702)]).mem.readWord (start 0x12 [] [(0x12, 0xABCD0702)]).pc) =
        .instr (.loadImmediate1 7 0xABCD) :=
  ⟨(accepts_default _).2 (by decide), by decide, by decide⟩

/-- PlacedWordIsExecutedNext: V40's word, at reset. -/
theorem witness_placed :
    decodeTableWord 32 0x02010002 = some (.loadImmediate1 0 0x0201) ∧ State.reset.pc.toNat ≤ 0xFFFFFFFC ∧
      nextHas (step (State.reset.withFetchWord 32 0x02010002)) (fun t => t.getReg 0 == 0x0201) = true := by
  decide

/-- UnknownOpcodeStopsTheStep and ErrorPriorityAndStateLeft: the boundaries of each clause. -/
theorem witness_errors :
    ((start 0 [] [(0, 0x0000070E)]).fetchable Config.default ∧
      (registerField (start 0 [] [(0, 0x0000070E)]).fetchWord).toNat ≤ 7 ∧
      opcodeMap.lookup (opcodeField (start 0 [] [(0, 0x0000070E)]).fetchWord) = none) ∧
    ((start 0 [] [(0, 0x00000800)]).fetchable Config.default ∧
      7 < (registerField (start 0 [] [(0, 0x00000800)]).fetchWord).toNat) ∧
    ¬ Reaches Config.default (start 0xFFFFFFFD [] []).pc :=
  ⟨⟨(accepts_default _).2 (by decide), by decide, by decide⟩, ⟨(accepts_default _).2 (by decide), by decide⟩,
    mt (reaches_default _).1 (by decide)⟩

/-- UnknownOpcodeStopsTheStep, second clause. -/
theorem witness_unknown_fault :
    ∃ f, stepWith Config.default (start 0 [] [(0, 0x0000070E)]) = .fault f ∧
      (f.kind == .unknownOpcode && f.info == 0x0E) = true := exists_of_faultHas (by decide)

/-- StepNeverRefuses, second clause: V58. -/
theorem witness_indirect_fault :
    decodeWith opcodeMap (start 4 [] [(4, 0x00800206), (0x80, 0xFFFFFFFE)]).fetchWord =
        .instr (.loadIndirect 2 0x0080) ∧
      ∃ f, stepWith Config.default (start 4 [] [(4, 0x00800206), (0x80, 0xFFFFFFFE)]) = .fault f ∧
        (f.kind == .addressOverflow) = true :=
  ⟨by decide, exists_of_faultHas (by decide)⟩

/-- HaltedReportedExactlyForHalt: both answers. -/
theorem witness_halted :
    stepResult Config.default (start 0 [] []) = .ok true ((start 0 [] []).afterFetch Config.default) ∧
      stepResult Config.default (start 0 [] [(0, 1)]) = .ok false ((start 0 [] [(0, 1)]).afterFetch Config.default) ∧
      decodeWith opcodeMap (((start 0 [] []).afterFetch Config.default).fetchWord) = .instr .halt := by decide

/-- OnlyJumpsLeaveTheSequence and StepChangesAtMostOneThing: a JMP, a JNZ taken and not, neither. -/
theorem witness_jumps :
    Function.Injective opcodeMap ∧
    (∃ t, stepWith Config.default (start 0 [] [(0, 0x0020000C)]) = .next t ∧ (t.pc == 0x20) = true) ∧
    opcodeField (start 0 [] [(0, 0x0020000C)]).fetchWord = opcodeMap .JMP ∧
    (∃ t, stepWith Config.default (start 0 [(7, 1)] [(0, 0x0020070D)]) = .next t ∧ (t.pc == 0x20) = true) ∧
    (∃ t, stepWith Config.default (start 0 [(6, 1)] [(0, 0x0020070D)]) = .next t ∧ (t.pc == 4) = true) ∧
    opcodeField (start 0 [] [(0, 0x0020070D)]).fetchWord = opcodeMap .JNZ ∧
    (registerField (start 0 [] [(0, 0x0020070D)]).fetchWord).toNat < 8 ∧
    (∃ t, stepWith Config.default (start 0 [] [(0, 1)]) = .next t ∧ (t.pc == 4) = true) ∧
    opcodeField (start 0 [] [(0, 1)]).fetchWord ≠ opcodeMap .JMP ∧
    opcodeField (start 0 [] [(0, 1)]).fetchWord ≠ opcodeMap .JNZ :=
  ⟨opcodeMap_injective, exists_of_nextHas (by decide), by decide, exists_of_nextHas (by decide),
    exists_of_nextHas (by decide), by decide, by decide, exists_of_nextHas (by decide), by decide, by decide⟩

/-- StepChangesAtMostOneThing: a step that changes a register, one that stores directly, one that stores through a
pointer. -/
theorem witness_changes :
    (∃ t, stepWith Config.default (start 0 [] [(0, 0x02010002)]) = .next t ∧
      (t.getReg 0 != (start 0 [] [(0, 0x02010002)]).getReg 0) = true) ∧
    (∃ t, stepWith Config.default (start 0 [(1, 5)] [(0, 0x01040105)]) = .next t ∧
      (t.mem.readByte 0x104 != (start 0 [(1, 5)] [(0, 0x01040105)]).mem.readByte 0x104 &&
        opcodeField t.ir == opcodeMap .STORE_DIRECT) = true) ∧
    (∃ t, stepWith Config.default (start 0 [(1, 5)] [(0, 0x01040107), (0x104, 0x200)]) = .next t ∧
      (t.mem.readByte 0x200 != (start 0 [(1, 5)] [(0, 0x01040107), (0x104, 0x200)]).mem.readByte 0x200 &&
        opcodeField t.ir == opcodeMap .STORE_INDIRECT) = true) :=
  ⟨exists_of_nextHas (by decide), exists_of_nextHas (by decide), exists_of_nextHas (by decide)⟩

/-- StepIgnoresLatchesAndFlags: two states that differ in flags, `sp` and latches, a step and an error. -/
theorem witness_alike :
    (start 0 [] []).regs =
        ({ start 0 [] [] with sp := 1, mar := 2, flags := { Flags.clear with zero := true } } : State).regs ∧
      (∃ t, stepWith Config.default (start 0 [] []) = .next t ∧ (t.pc == 4) = true) ∧
      ∃ f, stepWith Config.default (start 0xFFFFFFFD [] []) = .fault f ∧ (f.info == 0xFFFFFFFD) = true :=
  ⟨rfl, exists_of_nextHas (by decide), exists_of_faultHas (by decide)⟩

/-- ConstructAndLoadCommute: bytes up to the last address of memory; one byte more would run past it (log 22). -/
theorem witness_load :
    ∃ t, loadBytes Config.default 0xFFFFFFFE [0x11, 0x22] State.reset = .next t ∧
      (t.mem == [(0xFFFFFFFE, 0x11), (0xFFFFFFFF, 0x22)]) = true ∧
      (0xFFFFFFFE#32).toNat + [0x11#8, 0x22#8].length ≤ 2 ^ 32 := by
  obtain ⟨t, h, ht⟩ := exists_of_nextHas (o := loadBytes Config.default 0xFFFFFFFE [0x11, 0x22] State.reset)
    (p := fun t => t.mem == [(0xFFFFFFFE, 0x11), (0xFFFFFFFF, 0x22)]) (by decide)
  exact ⟨t, h, ht, by decide⟩

/-- ConstructMeetsTheInvariant: a memory in canonical form. -/
theorem witness_construct : Memory.wf (start 0 [] [(0x100, 0x67452301)]).mem := by decide

/-- StepKeepsTheInvariant, ErrorStateKeepsTheInvariant: states that meet the invariant and step, or err. -/
theorem witness_invariant :
    (start 0 [(1, 5)] [(0, 0x01040105)]).Inv ∧ (start 0xFFFFFFFD [] []).Inv ∧
      (∃ t, stepWith Config.default (start 0 [(1, 5)] [(0, 0x01040105)]) = .next t ∧ (t.mem.readWord 0x104 == 5) = true) ∧
      ∃ f, stepWith Config.default (start 0xFFFFFFFD [] []) = .fault f ∧ (f.kind == .addressOverflow) = true :=
  ⟨⟨by decide, by decide, by decide, by decide, by decide, by decide⟩,
    ⟨by decide, by decide, by decide, by decide, by decide, by decide⟩, exists_of_nextHas (by decide),
    exists_of_faultHas (by decide)⟩

/-- ReachableStatesMeetTheInvariant: the reset state is reachable. -/
theorem witness_reachable : Reachable Config.default State.reset := .start (.construct [] (by decide))

/-- PeekAndSignalAgree: one NOP and then zeroed memory, which is a HALT; `pc = 8` under SIGNAL, 4 under PEEK. -/
theorem witness_protocols :
    (match runSignal Config.default 2 (start 0 [] [(0, 1)]) with | .halted t => t.pc == 8 | _ => false) = true ∧
      (match runPeek Config.default 1 (start 0 [] [(0, 1)]) with
        | .halted p => p.pc == 4 && (registerField p.fetchWord).toNat ≤ 7 && p.pc.toNat ≤ 0xFFFFFFFC
        | _ => false) = true := by decide

/-- One successful step, as a run. -/
theorem stepsTo_one {c : Config} {s t : State} (h : stepWith c s = .next t) : StepsTo c 1 s t := ⟨t, h, rfl⟩

/-- A run of no steps is HALT-free; one step is where its word is not HALT's. -/
theorem haltFree_zero (c : Config) (s : State) : HaltFree c 0 s := fun k hk => absurd hk (by omega)

theorem haltFree_one {c : Config} {s : State} (h : opcodeField s.fetchWord ≠ c.opcodeMap .HALT) : HaltFree c 1 s := by
  intro k hk u hu
  obtain rfl : k = 0 := by omega
  cases hu
  exact h

/-- SafeRunEndsWithoutError, the clause that ends at the bound: one NOP, one step. -/
theorem witness_safe_bound :
    SafeFor Config.default 1 (start 0 [] [(0, 1)]) ∧ HaltFree Config.default 1 (start 0 [] [(0, 1)]) ∧
      ∃ t, StepsTo Config.default 1 (start 0 [] [(0, 1)]) t ∧ (t.pc == 4) = true := by
  obtain ⟨t, h, ht⟩ := exists_of_nextHas (o := stepWith Config.default (start 0 [] [(0, 1)])) (p := fun t => t.pc == 4)
    (by decide)
  exact ⟨⟨t, stepsTo_one h⟩, haltFree_one (by decide), t, stepsTo_one h, ht⟩

/-- SafeRunEndsWithoutError, the clause that ends at a HALT: the first step from reset. -/
theorem witness_safe_halted :
    SafeFor Config.default 1 State.reset ∧ HaltFree Config.default 0 State.reset ∧
      StepsTo Config.default 0 State.reset State.reset ∧
      opcodeField State.reset.fetchWord = Config.default.opcodeMap .HALT ∧
      ∃ v, stepWith Config.default State.reset = .next v ∧ (v.pc == 4) = true := by
  obtain ⟨v, h, hv⟩ := exists_of_nextHas (o := stepWith Config.default State.reset) (p := fun t => t.pc == 4) (by decide)
  exact ⟨⟨v, stepsTo_one h⟩, haltFree_zero _ _, rfl, by decide, v, h, hv⟩

/-- PeekChecksTheByteAtPc: `pc` at the cap, and the last byte below it. -/
theorem witness_peek :
    (∃ cap, strict.addrCap = some cap ∧ cap ≤ (start 0x1000 [] []).pc.toNat) ∧
      ¬ ∃ cap, strict.addrCap = some cap ∧ cap ≤ (start 0xFFF [] []).pc.toNat := by
  refine ⟨⟨0x1000, rfl, by decide⟩, ?_⟩
  rintro ⟨cap, hc, h⟩
  cases hc
  exact absurd h (by decide)

/-- ErrorEndsTheRun, the clause of a cap: PEEK's check and the step raise the same error. -/
theorem witness_error_cap :
    HaltFree strict 0 (start 0x1000 [] []) ∧ StepsTo strict 0 (start 0x1000 [] []) (start 0x1000 [] []) ∧
      stepWith strict (start 0x1000 [] []) = .fault (.addressOverflow 0x1000 (start 0x1000 [] [])) :=
  ⟨haltFree_zero _ _, rfl, rfl⟩

/-- ErrorEndsTheRun: V14's word, whose opcode is not HALT's, as the first step. -/
theorem witness_error_end :
    HaltFree Config.default 0 (start 0 [] [(0, 0x0000010E)]) ∧
      StepsTo Config.default 0 (start 0 [] [(0, 0x0000010E)]) (start 0 [] [(0, 0x0000010E)]) ∧
      (start 0 [] [(0, 0x0000010E)]).mem.readByte (start 0 [] [(0, 0x0000010E)]).pc.toNat ≠
        Config.default.opcodeMap .HALT ∧
      ∃ f, stepWith Config.default (start 0 [] [(0, 0x0000010E)]) = .fault f ∧ (f.kind == .unknownOpcode) = true :=
  ⟨haltFree_zero _ _, rfl, by decide, exists_of_faultHas (by decide)⟩

/-- StepNeverRefuses, third clause: a misaligned fetch where alignment is required; the default machine runs it. -/
theorem witness_refusal : stepWith strict (start 2 [] []) = .refused (.misalignedAccess 2) := rfl

end Sys2Proof.Tests
end

section
/-! PROOFS. The word accesses under any parameters (00_scope.md R5; 20_memory.md R57 to R60). -/

open Sys2Proof Sys2Proof.Machine

namespace Sys2Proof.Proofs

/-- Where a byte of the word at `a` does not exist: past the top on a machine that raises there (R58), or at or beyond
the cap (R59). -/
theorem not_reaches_iff (c : Config) (a : Word) :
    ¬ Reaches c a ↔
      (0xFFFFFFFC < a.toNat ∧ c.pastTop = .raise) ∨ ∃ cap, c.addrCap = some cap ∧ cap ≤ a.toNat + 3 := by
  have raise_iff : c.pastTop = .raise ↔ ¬ c.pastTop = .wrap := by cases c.pastTop <;> decide
  simp only [Reaches, raise_iff, not_and_or, not_or, not_forall, not_le, not_lt, exists_prop]

/-- A store that goes on makes the word `v`, changes no other byte, and latches as the parameters say (R54, R55, R60). -/
theorem storeW_effect_of_accepts {c : Config} {a : Word} (v : Word) (s : State) (h : Accepts c a) :
    ∃ t, storeW c a v s = .next t ∧ t.mem.readWord a = v ∧ SameMemoryBut a s t ∧
      t = { s with mar := c.marAfter a v, mbr := c.mbrAfter a v, mem := t.mem } :=
  ⟨_, storeW_of_accepts v s h, Memory.readWord_writeWord_self .., sameMemoryBut_of_writeWord rfl, rfl⟩

/-- Settles O14: `missing` is the failure of `Reaches`, and each clause is the access's answer in that case. -/
theorem parametersDecideWordAccesses : Obligations.ParametersDecideWordAccesses := by
  intro c a v s w missing
  have hmissing : ¬ Reaches c a ↔ missing := not_reaches_iff c a
  rw [← hmissing, not_not]
  refine ⟨fun hr hd => ?goesOn, fun hr => ?raises, fun hr hd => ?refused⟩
  case goesOn => exact ⟨loadW_of_accepts s ⟨hr, hd⟩, storeW_effect_of_accepts v s ⟨hr, hd⟩⟩
  case raises => exact ⟨loadW_of_not_reaches s hr, storeW_of_not_reaches v s hr⟩
  case refused => exact ⟨loadW_of_misaligned s hr hd, storeW_of_misaligned v s hr hd⟩

end Sys2Proof.Proofs
end

section
/-! PROOFS. The state: reset, the register file, what no instruction writes, and the invariant along every run
(10_state.md R20 to R35; 60_exceptions.md R186, R190, R191). -/

open Sys2Proof Sys2Proof.Machine

namespace Sys2Proof.Proofs

/-! ## The frame of every body -/

/-- No effect writes a flag, `sp` or `br`, nor what only the fetch writes (R25, R26, R29, R30). -/
theorem execEffect_sameInert_sameFetchLatches {c : Config} {i : Instr} {s t : State} (h : ExecEffect c i s t) :
    SameInert s t ∧ SameFetchLatches s t := by
  cases h <;> exact ⟨⟨rfl, rfl, rfl⟩, rfl, rfl, rfl⟩

/-- Every effect keeps the canonical form: only a store changes memory, by a word write. -/
theorem execEffect_mem_wf {c : Config} {i : Instr} {s t : State} (h : ExecEffect c i s t) (hs : s.mem.wf) :
    t.mem.wf := by
  cases h with
  | nothing | reg | load | jump => exact hs
  | store a v => exact Memory.wf_writeWord hs a v

/-- A register field above 7 raises in every body that has one, with nothing done (R22, R181). -/
theorem execWith_of_ill_formed (c : Config) {i : Instr} {rt : Byte} (s : State) (hi : i.targetField = some rt)
    (hrt : ¬ rt.toNat < 8) : execWith c i s = .fault (.outOfRangeRegister rt s) := by
  cases i with
  | halt | nop | jmp => cases hi
  | loadImmediate1 | loadImmediate2 | loadDirect | storeDirect | loadIndirect | storeIndirect | mov | add | sub | mul
  | jnz =>
    cases hi
    unfold execWith
    exact withTarget_of_ge s _ hrt

/-! ## The step's errors, inverted -/

/-- A dispatch that faults is a rejection by the decoder, or the error of the decoded body (R114, R115). -/
theorem dispatchWith_eq_fault {m : OpcodeMap} {bodies : Instr → State → Result State} {s : State} {f : Fault}
    (h : dispatchWith m bodies s = .fault f) :
    (∃ i, decodeWith m s.ir = .instr i ∧ bodies i s = .fault f) ∨
      (∃ r, decodeWith m s.ir = .outOfRangeRegister r ∧ f = .outOfRangeRegister r s) ∨
      ∃ o, decodeWith m s.ir = .unknownOpcode o ∧ f = .unknownOpcode o s := by
  cases hd : decodeWith m s.ir with
  | instr i => exact .inl ⟨i, rfl, (dispatchWith_of_instr hd).symm.trans h⟩
  | outOfRangeRegister r =>
    rw [dispatchWith_of_outOfRange hd] at h
    cases h
    exact .inr (.inl ⟨r, rfl, rfl⟩)
  | unknownOpcode o =>
    rw [dispatchWith_of_unknown hd] at h
    cases h
    exact .inr (.inr ⟨o, rfl, rfl⟩)

/-- A step that faults failed in its fetch, which changes nothing, or in the dispatch of the state the fetch leaves. -/
theorem stepWith_eq_fault {c : Config} {s : State} {f : Fault} (h : stepWith c s = .fault f) :
    (¬ Reaches c s.pc ∧ f = .addressOverflow s.pc s) ∨
      (s.fetchable c ∧ dispatchWith c.opcodeMap (execWith c) (s.afterFetch c) = .fault f) := by
  rcases stepWith_cases c s with ⟨hf, e⟩ | ⟨hr, e⟩ | ⟨-, e⟩ <;> rw [e] at h
  · exact .inr ⟨hf, h⟩
  · cases h
    exact .inl ⟨hr, rfl⟩
  · cases h

/-! ## What keeps the invariant -/

/-- Construct gives a state that meets the invariant on every canonical memory (R34; D11). -/
theorem inv_construct {m : Memory} (hm : m.wf) : (State.construct m).Inv where
  memory := hm
  flags := rfl
  sp := rfl
  br := rfl
  rop := show (0 : Byte) = registerField 0 by decide
  dop := show (0 : Half) = dataField 0 by decide

/-- The invariant speaks of memory, the inert fields and the fetch's latches only. -/
theorem inv_of_same {s t : State} (hs : s.Inv) (hm : t.mem.wf) (h : SameInert s t ∧ SameFetchLatches s t) :
    t.Inv := by
  obtain ⟨⟨hflags, hsp, hbr⟩, hir, hrop, hdop⟩ := h
  exact ⟨hm, hflags.trans hs.flags, hsp.trans hs.sp, hbr.trans hs.br, by rw [hrop, hir, hs.rop],
    by rw [hdop, hir, hs.dop]⟩

theorem inv_setPc {s : State} (hs : s.Inv) (v : Word) : (setPc v s).Inv :=
  inv_of_same hs hs.memory ⟨⟨rfl, rfl, rfl⟩, rfl, rfl, rfl⟩

theorem inv_latchAccess {s : State} (hs : s.Inv) (c : Config) (a v : Word) : (s.latchAccess c a v).Inv :=
  inv_of_same hs hs.memory ⟨⟨rfl, rfl, rfl⟩, rfl, rfl, rfl⟩

theorem inv_withMem {s : State} (hs : s.Inv) {m : Memory} (hm : m.wf) : State.Inv { s with mem := m } :=
  inv_of_same hs hm ⟨⟨rfl, rfl, rfl⟩, rfl, rfl, rfl⟩

/-- The fetch latches the fields of the word it puts in `ir` (R30, R112). -/
theorem inv_afterFetch {s : State} (hs : s.Inv) (c : Config) : (s.afterFetch c).Inv :=
  ⟨hs.memory, hs.flags, hs.sp, hs.br, rfl, rfl⟩

theorem inv_of_execEffect {c : Config} {i : Instr} {s t : State} (hs : s.Inv) (h : ExecEffect c i s t) : t.Inv :=
  inv_of_same hs (execEffect_mem_wf h hs.memory) (execEffect_sameInert_sameFetchLatches h)

/-- A body's error leaves its state as it was, or with the latches of the pointer read (R186). -/
theorem inv_after_of_execError {c : Config} {i : Instr} {s : State} {f : Fault} (hs : s.Inv) (h : ExecError c i s f) :
    f.after.Inv := by
  cases h with
  | register | direct | cell => exact hs
  | pointer => exact inv_latchAccess hs c _ _

theorem inv_of_stepWith_next {c : Config} {s t : State} (hs : s.Inv) (h : stepWith c s = .next t) : t.Inv := by
  obtain ⟨-, i, -, hexec⟩ := stepWith_eq_next h
  exact inv_of_execEffect (inv_afterFetch hs c) (execWith_effect hexec)

/-- The state an error leaves: untouched by a failed fetch, else what the fetch or the failing body left (R186). -/
theorem inv_after_of_stepWith_fault {c : Config} {s : State} {f : Fault} (hs : s.Inv) (h : stepWith c s = .fault f) :
    f.after.Inv := by
  obtain ⟨-, rfl⟩ | ⟨-, hd⟩ := stepWith_eq_fault h
  · exact hs
  · have hfetched := inv_afterFetch hs c
    obtain ⟨i, -, hexec⟩ | ⟨r, -, rfl⟩ | ⟨o, -, rfl⟩ := dispatchWith_eq_fault hd
    · exact inv_after_of_execError hfetched (execWith_error hexec)
    · exact hfetched
    · exact hfetched

/-! ## The invariant before the run and along it -/

theorem inv_of_storeByte {c : Config} {a : Word} {b : Byte} {s t : State} (hs : s.Inv)
    (h : storeByte c a b s = .next t) : t.Inv := by
  obtain rfl := storeByte_eq_next h
  exact inv_withMem hs (Memory.wf_writeByte hs.memory b a.isLt)

theorem inv_of_storeWord {c : Config} {a v : Word} {s t : State} (hs : s.Inv) (h : storeWord c a v s = .next t) :
    t.Inv := by
  obtain ⟨-, rfl⟩ := memWriteWord_eq_next h
  exact inv_withMem hs (Memory.wf_writeWord hs.memory a v)

theorem inv_of_loadBytes {c : Config} {a : Word} {bytes : List Byte} {s t : State} (hs : s.Inv)
    (h : loadBytes c a bytes s = .next t) : t.Inv := by
  induction bytes generalizing a s with
  | nil =>
    cases h
    exact hs
  | cons b rest ih =>
    obtain ⟨u, hstore, hrest⟩ := andThen_eq_next h
    exact ih (inv_of_storeByte hs hstore) hrest

theorem inv_of_beforeRun {c : Config} {s : State} (h : BeforeRun c s) : s.Inv := by
  induction h with
  | construct m hm => exact inv_construct hm
  | load a bytes _ hload ih => exact inv_of_loadBytes ih hload
  | storeWord a v _ hstore ih => exact inv_of_storeWord ih hstore
  | setPc v _ ih => exact inv_setPc ih v

theorem inv_of_reachable {c : Config} {s : State} (h : Reachable c s) : s.Inv := by
  induction h with
  | start hs => exact inv_of_beforeRun hs
  | setPc v _ ih => exact inv_setPc ih v
  | step _ hstep ih => exact inv_of_stepWith_next ih hstep
  | goOn _ hstep ih => exact inv_after_of_stepWith_fault ih hstep

/-! ## The obligations -/

/-- Settles O54: the fetch makes the latches agree with `ir`, and no effect of a body breaks the invariant. -/
theorem stepKeepsTheInvariant : Obligations.StepKeepsTheInvariant :=
  fun _ _ _ => inv_of_stepWith_next

/-- Settles O39, by cases on the effect the instruction had. -/
theorem noInstructionWritesFlagsOrPointers : Obligations.NoInstructionWritesFlagsOrPointers :=
  fun _ _ _ h => execEffect_sameInert_sameFetchLatches (exec_effect h)

/-- Settles O56, by induction on how the driver reached the state. -/
theorem reachableStatesMeetTheInvariant : Obligations.ReachableStatesMeetTheInvariant :=
  fun _ _ => inv_of_reachable

/-- Settles O17: each field of `State.construct` as R34's table gives it. -/
theorem constructGivesTheResetTable : Obligations.ConstructGivesTheResetTable :=
  fun mem => ⟨State.getReg_construct mem, rfl, rfl, rfl, rfl, rfl, rfl, rfl, rfl, rfl, rfl, rfl⟩

/-- Settles O19: the register written, and every other. -/
theorem registersReadWhatWasWritten : Obligations.RegistersReadWhatWasWritten := by
  refine fun s r q v => ⟨?_, rfl⟩
  split
  case isTrue h => rw [h, State.getReg_setReg_self]
  case isFalse h => exact State.getReg_setReg_ne s v h

/-- Settles O38, through the register file's check at the head of every body with a target field. -/
theorem illFormedTargetRaises : Obligations.IllFormedTargetRaises := by
  intro i rt s hi hrt
  rw [exec_eq_execWith]
  exact execWith_of_ill_formed _ s hi (by omega)

/-- Settles O43: the two dispatches agree instruction by instruction, and so the two steps. -/
theorem defaultParametersGiveTheMachine : Obligations.DefaultParametersGiveTheMachine :=
  ⟨exec_eq_execWith, step_eq_stepWith, fun _ => rfl⟩

/-- Settles O53; State.reset is construct on the memory nothing has written, which is canonical. -/
theorem constructMeetsTheInvariant : Obligations.ConstructMeetsTheInvariant :=
  ⟨fun _ => inv_construct, inv_construct Memory.wf_nil⟩

end Sys2Proof.Proofs
end

section
/-! PROOFS. Memory: the byte and word primitives, the canonical form, the core's word accesses, ADDR_CAP at an access
and in the step, and the fetch of a stored word (20_memory.md R50 to R67). -/

open Sys2Proof Sys2Proof.Machine

namespace Sys2Proof.Proofs

/-! ## The bytes of a word that ends below the top, by number -/

/-- Byte `j` of the word read at `a` is the byte `j` places on (R53). -/
theorem wordByte_readWord_of_le (m : Memory) {a : Word} (ha : a.toNat ≤ 0xFFFFFFFC) {j : Nat} (hj : j < 4) :
    wordByte (m.readWord a) j = m.readByte (a.toNat + j) := by
  obtain ⟨h0, h1, h2, h3⟩ := Memory.wordByte_readWord m a
  obtain ⟨e1, e2, e3⟩ := toNat_add_of_le ha
  rw [e1] at h1
  rw [e2] at h2
  rw [e3] at h3
  interval_cases j
  exacts [h0, h1, h2, h3]

/-- The byte `i` places on from a stored word is its byte `i`, or the byte memory held there (R54). -/
theorem readByte_writeWord_add (m : Memory) {a : Word} (v : Word) (ha : a.toNat ≤ 0xFFFFFFFC) (i : Nat) :
    (m.writeWord a v).readByte (a.toNat + i) = if i < 4 then wordByte v i else m.readByte (a.toNat + i) := by
  split
  case isTrue hi => rw [← wordByte_readWord_of_le _ ha hi, Memory.readWord_writeWord_self]
  case isFalse hi =>
    obtain ⟨-, -, -, -, hother⟩ := Memory.readByte_writeWord m a v
    obtain ⟨e1, e2, e3⟩ := toNat_add_of_le ha
    exact hother _ (by omega) (by omega) (by omega) (by omega)

/-! ## The word primitives where they go on -/

theorem memReadWord_of_accepts {c : Config} {a : Word} (s : State) (h : Accepts c a) :
    memReadWord c a s = .next (s.mem.readWord a) :=
  guardWord_of_accepts _ _ h

theorem memWriteWord_of_accepts {c : Config} {a : Word} (v : Word) (s : State) (h : Accepts c a) :
    memWriteWord c a v s = .next { s with mem := s.mem.writeWord a v } :=
  guardWord_of_accepts _ _ h

/-! ## The canonical form -/

theorem readByte_of_mem_wf {m : Memory} (hm : m.wf) {c : Host.Cell} (hc : c ∈ m) : m.readByte c.1 = c.2 := by
  obtain ⟨hsorted, -⟩ := hm
  induction m with
  | nil => cases hc
  | cons d rest ih =>
    obtain ⟨hd, hrest⟩ := List.pairwise_cons.1 hsorted
    rw [Memory.readByte_cons]
    obtain rfl | hc := List.mem_cons.1 hc
    · exact if_pos rfl
    · rw [if_neg (hd c hc).ne]
      exact ih hc hrest

/-- Only a listed byte reads as something else than an unwritten one. -/
theorem mem_of_readByte_ne {m : Memory} {a : Nat} (h : m.readByte a ≠ Memory.unwritten) : (a, m.readByte a) ∈ m := by
  induction m with
  | nil => exact absurd rfl h
  | cons d rest ih =>
    rw [Memory.readByte_cons] at h ⊢
    split at h
    case isTrue hd =>
      rw [if_pos hd, ← hd]
      exact List.mem_cons_self
    case isFalse hd =>
      rw [if_neg hd]
      exact List.mem_cons_of_mem d (ih h)

/-- A canonical memory lists exactly the bytes it reads that are not the unwritten one. -/
theorem mem_iff_readByte {m : Memory} (hm : m.wf) (c : Host.Cell) :
    c ∈ m ↔ m.readByte c.1 = c.2 ∧ c.2 ≠ Memory.unwritten := by
  constructor
  · exact fun hc => ⟨readByte_of_mem_wf hm hc, (hm.2 c hc).1⟩
  · rintro ⟨hread, hne⟩
    rw [← hread] at hne
    simpa only [hread] using mem_of_readByte_ne hne

/-! ## The cap at an access (R59) -/

theorem guardByte_of_belowCap {α : Type} {c : Config} {a : Word} (s : State) (r : Result α)
    (h : belowCap c a.toNat = true) : guardByte c a s r = r :=
  if_pos h

theorem guardByte_of_not_belowCap {α : Type} {c : Config} {a : Word} (s : State) (r : Result α)
    (h : ¬ belowCap c a.toNat = true) : guardByte c a s r = .fault (.addressOverflow a s) :=
  if_neg h

theorem belowCap_iff_of_cap {c : Config} {cap : Nat} (hc : c.addrCap = some cap) (last : Nat) :
    belowCap c last = true ↔ last < cap := by
  simp only [belowCap, hc, decide_eq_true_eq]

theorem not_reaches_of_cap_le {c : Config} {cap : Nat} (hc : c.addrCap = some cap) {a : Word}
    (h : cap ≤ a.toNat + 3) : ¬ Reaches c a :=
  (not_reaches_iff c a).2 (.inr ⟨cap, hc, h⟩)

/-- A word whose last byte is below the cap is guarded as on the machine with no cap. -/
theorem guardWord_of_lt_cap {α : Type} (c : Config) {cap : Nat} {a : Word} (s : State) (r : Result α)
    (h : a.toNat + 3 < cap) :
    guardWord { c with addrCap := some cap } a s r = guardWord { c with addrCap := none } a s r := by
  have hbounds : wordInBounds { c with addrCap := some cap } a = wordInBounds { c with addrCap := none } a := by
    simp only [wordInBounds, belowCap, h, decide_true]
  rw [guardWord, guardWord, hbounds]
  rfl

/-! ## The memory bodies where an access of theirs does not reach -/

/-- A direct access whose word does not exist raises with nothing of it done (R150, R151, R186). -/
theorem execWith_direct_of_not_reaches {c : Config} {rt : Byte} {addr : Half} {i : Instr} (s : State)
    (h : rt.toNat < 8) (ha : ¬ Reaches c (directAddress addr))
    (hi : i = .loadDirect rt addr ∨ i = .storeDirect rt addr) :
    execWith c i s = .fault (.addressOverflow (directAddress addr) s) := by
  rcases hi with rfl | rfl
  · simp only [execWith, execLoadDirectWith, withTarget_of_lt s _ h, loadW_of_not_reaches s ha, andThen_fault]
  · simp only [execWith, execStoreDirectWith, withTarget_of_lt s _ h, storeW_of_not_reaches _ s ha]

/-- An indirect access whose pointer cell does not exist raises with nothing of it done (R152, R153, R186). -/
theorem execWith_indirect_of_cell_not_reaches {c : Config} {rt : Byte} {cell : Half} {i : Instr} (s : State)
    (h : rt.toNat < 8) (hc : ¬ Reaches c (pointerCell cell))
    (hi : i = .loadIndirect rt cell ∨ i = .storeIndirect rt cell) :
    execWith c i s = .fault (.addressOverflow (pointerCell cell) s) := by
  have hload : loadPointer c cell s = .fault (.addressOverflow (pointerCell cell) s) := loadW_of_not_reaches s hc
  rcases hi with rfl | rfl
  · simp only [execWith, execLoadIndirectWith, withTarget_of_lt s _ h, hload, andThen_fault]
  · simp only [execWith, execStoreIndirectWith, withTarget_of_lt s _ h, hload, andThen_fault]

/-- An indirect access through a pointer whose word does not exist raises, leaving the latches of the pointer's read
(R152, R153, R186). -/
theorem execWith_indirect_of_pointer_not_reaches {c : Config} {rt : Byte} {cell : Half} {i : Instr} {s : State}
    (h : rt.toNat < 8) (hc : Accepts c (pointerCell cell)) (hp : ¬ Reaches c (indirectAddress cell s))
    (hi : i = .loadIndirect rt cell ∨ i = .storeIndirect rt cell) :
    execWith c i s =
      .fault (.addressOverflow (indirectAddress cell s)
        (s.latchAccess c (pointerCell cell) (indirectAddress cell s))) := by
  rcases hi with rfl | rfl
  · simp only [execWith, execLoadIndirectWith, withTarget_of_lt s _ h, loadPointer_of_accepts s hc, andThen_next,
      loadW_of_not_reaches _ hp, andThen_fault]
  · simp only [execWith, execStoreIndirectWith, withTarget_of_lt s _ h, loadPointer_of_accepts s hc, andThen_next,
      storeW_of_not_reaches _ _ hp]

/-- Under a cap each of the four memory bodies raises at an address field whose word passes it. -/
theorem execWith_memory_of_cap_le {c : Config} {cap : Nat} (hc : c.addrCap = some cap) {rt : Byte} {d : Half}
    (s : State) (h : rt.toNat < 8) (hd : cap ≤ d.toNat + 3) {i : Instr}
    (hi : i ∈ [Instr.loadDirect rt d, .storeDirect rt d, .loadIndirect rt d, .storeIndirect rt d]) :
    execWith c i s = .fault (.addressOverflow (zext d) s) := by
  have hreach : ¬ Reaches c (zext d) := not_reaches_of_cap_le hc (by rwa [zext_toNat])
  simp only [List.mem_cons, List.not_mem_nil, or_false] at hi
  rcases hi with hi | hi | hi | hi
  · exact execWith_direct_of_not_reaches s h hreach (.inl hi)
  · exact execWith_direct_of_not_reaches s h hreach (.inr hi)
  · exact execWith_indirect_of_cell_not_reaches s h hreach (.inl hi)
  · exact execWith_indirect_of_cell_not_reaches s h hreach (.inr hi)

/-- A pointer cell below the cap, at an accepted alignment, can be read: an address field never nears the top (R85). -/
theorem accepts_pointerCell_of_lt_cap {c : Config} {cap : Nat} (hc : c.addrCap = some cap) {cell : Half}
    (hlt : cell.toNat + 3 < cap) (hd : c.alignment ∣ cell.toNat) : Accepts c (pointerCell cell) := by
  have hcell : (pointerCell cell).toNat = cell.toNat := zext_toNat cell
  refine ⟨⟨.inl (pointerCell_le cell), fun cap' hc' => ?_⟩, by rwa [hcell]⟩
  cases hc.symm.trans hc'
  rwa [hcell]

/-! ## The fetch of a stored word (R67) -/

theorem exists_fetch_of_writeWord {c : Config} {a v : Word} {m : Memory} {t : State} (ha : Accepts c a)
    (ht : t.mem = m.writeWord a v) : ∃ u, fetch c (setPc a t) = .next u ∧ u.ir = v := by
  refine ⟨_, fetch_of_fetchable ha, ?_⟩
  rw [State.afterFetch_ir, State.fetchWord, setPc_mem, setPc_pc, ht, Memory.readWord_writeWord_self]

/-- On the default machine a STORE_INDIRECT that goes on went through a pointer to a word that exists (R58, R153). -/
theorem accepts_of_storeIndirect_eq_next {rt : Byte} {cell : Half} {s t : State} (h : rt.toNat < 8)
    (he : execWith Config.default (.storeIndirect rt cell) s = .next t) :
    Accepts Config.default (indirectAddress cell s) := by
  by_contra hp
  have hreach : ¬ Reaches Config.default (indirectAddress cell s) := by
    rwa [reaches_default, ← accepts_default]
  have hcell := (accepts_default _).2 (pointerCell_le cell)
  rw [execWith_indirect_of_pointer_not_reaches h hcell hreach (.inr rfl)] at he
  cases he

/-! ## The obligations -/

/-- Settles O8: the round trip of R55 and the four bytes of a word write. -/
theorem storeWordThenLoadWord : Obligations.StoreWordThenLoadWord := by
  intro a v s ha
  have hacc := (accepts_default a).2 ha
  have hstore := memWriteWord_of_accepts v s hacc
  obtain ⟨h0, h1, h2, h3, -⟩ := Memory.readByte_writeWord s.mem a v
  exact ⟨_, hstore, memReadWord_of_memWriteWord hstore, congrArg _ h0, congrArg _ h1, congrArg _ h2, congrArg _ h3⟩

/-- Settles O11: byte `j` of the word read is the byte `k + j` places on from the stored word. -/
theorem misalignedReadOverlapsStoredWord : Obligations.MisalignedReadOverlapsStoredWord := by
  intro mem a v k hk hak j hj
  have hsum : (a + BitVec.ofNat 32 k).toNat = a.toNat + k := by bv_omega
  calc wordByte ((mem.writeWord a v).readWord (a + BitVec.ofNat 32 k)) j
      = (mem.writeWord a v).readByte (a.toNat + (k + j)) := by
        rw [wordByte_readWord_of_le _ (hsum ▸ hak) hj, hsum, Nat.add_assoc]
    _ = if k + j < 4 then wordByte v (k + j) else mem.readByte (a.toNat + (k + j)) :=
        readByte_writeWord_add mem v (by omega) _
    _ = if j + k < 4 then wordByte v (j + k) else mem.readByte (a.toNat + k + j) := by
        rw [Nat.add_comm k j, Nat.add_assoc, Nat.add_comm k j]

/-- Settles O12: canonical memories that read alike list the same bytes, and both lists rise. -/
theorem equalReadsAreEqualMemories : Obligations.EqualReadsAreEqualMemories := by
  intro m n hm hn hread
  have : Std.Irrefl fun c d : Host.Cell => c.1 < d.1 := ⟨fun c => lt_irrefl c.1⟩
  refine List.Pairwise.eq_of_mem_iff hm.1 hn.1 fun c => ?_
  rw [mem_iff_readByte hm, mem_iff_readByte hn, hread]

/-- Settles O16: beyond the cap no word can be reached, at the fetch, at an address field, or at a pointer. -/
theorem addressCapBoundsTheStep : Obligations.AddressCapBoundsTheStep := by
  refine fun c cap hc => ⟨fun s hpc => ?fetch, fun s rt d hrt => ⟨fun hd i hi => ?address, ?pointer⟩⟩
  case fetch => exact stepWith_of_not_reaches (not_reaches_of_cap_le hc hpc)
  case address => exact execWith_memory_of_cap_le hc s hrt hd hi
  case pointer =>
    intro hd halign hptr i hi
    have hcell := accepts_pointerCell_of_lt_cap hc hd halign
    exact execWith_indirect_of_pointer_not_reaches hrt hcell (not_reaches_of_cap_le hc hptr) (by simpa using hi)

/-- Settles O52: each store leaves its word at its own address, where a fetch can read it. -/
theorem storeIsSeenByTheNextFetch : Obligations.StoreIsSeenByTheNextFetch := by
  refine ⟨fun rt addr s t h he => ?direct, fun rt cell s t h he => ?indirect⟩
  case direct =>
    have hacc := (accepts_default _).2 (directAddress_le addr)
    rw [exec_eq_execWith, execWith_storeDirect s h hacc] at he
    cases he
    exact exists_fetch_of_writeWord hacc rfl
  case indirect =>
    rw [exec_eq_execWith] at he
    have hacc := accepts_of_storeIndirect_eq_next h he
    rw [execWith_storeIndirect h ((accepts_default _).2 (pointerCell_le cell)) hacc] at he
    cases he
    exact exists_fetch_of_writeWord hacc rfl

/-- Settles O7: with no cap the byte guard passes, and a byte write changes its byte only. -/
theorem byteAccessesNeverFail : Obligations.ByteAccessesNeverFail :=
  fun _ b _ => ⟨guardByte_default _ _ _, _, guardByte_default _ _ _, Memory.readByte_writeByte_self _ _ b,
    fun _ hq => Memory.readByte_writeByte_ne _ b hq, rfl⟩

/-- Settles O9: the byte `i` places on from the stored word, for each `i` below 4. -/
theorem wordWriteChangesFourBytes : Obligations.WordWriteChangesFourBytes := by
  intro a v s ha
  have hbyte := readByte_writeWord_add s.mem v ha
  exact ⟨_, memWriteWord_of_accepts v s ((accepts_default a).2 ha), hbyte 0, hbyte 1, hbyte 2, hbyte 3,
    sameMemoryBut_of_writeWord rfl, rfl⟩

/-- Settles O10: `readWord`'s four addresses as numbers, and byte `j` of the word read for each `j` below 4. -/
theorem wordReadCombinesFourBytes : Obligations.WordReadCombinesFourBytes := by
  intro a s ha
  have hbyte {j : Nat} (hj : j < 4) := wordByte_readWord_of_le s.mem ha hj
  refine ⟨_, memReadWord_of_accepts s ((accepts_default a).2 ha), ?combined, hbyte (j := 0) (by decide),
    hbyte (j := 1) (by decide), hbyte (j := 2) (by decide), hbyte (j := 3) (by decide)⟩
  case combined =>
    obtain ⟨e1, e2, e3⟩ := toNat_add_of_le ha
    rw [Memory.readWord, e1, e2, e3, wordOfBytes]

/-- Settles O13: at the default parameters an access is accepted up to 0xFFFFFFFC and reaches no word above it. -/
theorem coreWordAccessLatchesOrRaises : Obligations.CoreWordAccessLatchesOrRaises := by
  refine fun a v s => ⟨fun ha => ?goesOn, fun ha => ?raises⟩
  case goesOn =>
    have hacc := (accepts_default a).2 ha
    exact ⟨loadW_of_accepts s hacc, storeW_effect_of_accepts v s hacc⟩
  case raises =>
    have hreach : ¬ Reaches Config.default a := by rwa [reaches_default, not_le]
    exact ⟨loadW_of_not_reaches s hreach, storeW_of_not_reaches v s hreach⟩

/-- Settles O15: the guard of each access on both sides of the cap. -/
theorem addressCapBoundsAccesses : Obligations.AddressCapBoundsAccesses := by
  intro c cap a v b s capped free
  have hbelow : belowCap capped a.toNat = true ↔ a.toNat < cap := belowCap_iff_of_cap rfl _
  refine ⟨fun h => ?byteRaises, fun h => ?byteGoesOn, fun h => ?wordRaises, fun h => ?wordAsFree⟩
  case byteRaises =>
    have hcap : ¬ belowCap capped a.toNat = true := by rwa [hbelow, not_lt]
    exact ⟨guardByte_of_not_belowCap s _ hcap, guardByte_of_not_belowCap s _ hcap⟩
  case byteGoesOn =>
    have hcap := hbelow.2 h
    exact ⟨guardByte_of_belowCap s _ hcap, guardByte_of_belowCap s _ hcap⟩
  case wordRaises =>
    have hreach : ¬ Reaches capped a := not_reaches_of_cap_le rfl h
    exact ⟨guardWord_of_not_reaches s _ hreach, guardWord_of_not_reaches s _ hreach⟩
  case wordAsFree => exact ⟨guardWord_of_lt_cap c s _ h, guardWord_of_lt_cap c s _ h⟩

end Sys2Proof.Proofs
end

section
/-! PROOFS. The encoding: the fields of a word and of its ignored bits, the decoder's verdicts, and the two round trips
of decoder and encoder (30_encoding.md R80 to R92). -/

open Sys2Proof Sys2Proof.Machine

namespace Sys2Proof.Proofs

/-! ## The fields of a word -/

/-- A word is determined by its three fields (R81). -/
theorem eq_of_fields {v w : Word} (ho : opcodeField v = opcodeField w) (hr : registerField v = registerField w)
    (hd : dataField v = dataField w) : v = w := by
  rw [← assemble_fields v, ho, hr, hd, assemble_fields]

@[simp] theorem opcodeField_and (v w : Word) : opcodeField (v &&& w) = opcodeField v &&& opcodeField w :=
  BitVec.extractLsb'_and

@[simp] theorem registerField_and (v w : Word) : registerField (v &&& w) = registerField v &&& registerField w :=
  BitVec.extractLsb'_and

@[simp] theorem dataField_and (v w : Word) : dataField (v &&& w) = dataField v &&& dataField w :=
  BitVec.extractLsb'_and

/-- Masking a word masks each field by the mask's own. -/
theorem and_assemble (w : Word) (o r : Byte) (d : Half) :
    w &&& assemble o r d = assemble (opcodeField w &&& o) (registerField w &&& r) (dataField w &&& d) :=
  eq_of_fields (by simp) (by simp) (by simp)

/-- The source index written into a zero dataOperand is the dataOperand with `dop[15:3]` cleared (R160). -/
theorem sourceField_setWidth_eq_and (d : Half) : (sourceField d).setWidth 16 = d &&& 7#16 := by
  apply BitVec.eq_of_toNat_eq
  have hmask : d.toNat &&& 7 = d.toNat % 8 := Nat.and_two_pow_sub_one_eq_mod _ 3
  simp [sourceField, hmask]
  omega

/-! ## A word with its ignored bits cleared, for each kind of operand (R84, R89) -/

/-- Both fields ignored: HALT, NOP. -/
theorem and_opcode_bits (w : Word) : w &&& 0x000000FF#32 = assemble (opcodeField w) 0#8 0#16 := by
  have hmask : 0x000000FF#32 = assemble (BitVec.allOnes 8) 0#8 0#16 := by decide
  rw [hmask, and_assemble, BitVec.and_allOnes, BitVec.and_zero, BitVec.and_zero]

/-- The register field ignored: JMP. -/
theorem and_opcode_data_bits (w : Word) : w &&& 0xFFFF00FF#32 = assemble (opcodeField w) 0#8 (dataField w) := by
  have hmask : 0xFFFF00FF#32 = assemble (BitVec.allOnes 8) 0#8 (BitVec.allOnes 16) := by decide
  rw [hmask, and_assemble, BitVec.and_allOnes, BitVec.and_zero, BitVec.and_allOnes]

/-- `dop[15:3]` ignored: MOV, ADD, SUB, MUL. -/
theorem and_register_source_bits (w : Word) :
    w &&& 0x0007FFFF#32 =
      assemble (opcodeField w) (registerField w) ((sourceField (dataField w)).setWidth 16) := by
  have hmask : 0x0007FFFF#32 = assemble (BitVec.allOnes 8) (BitVec.allOnes 8) 7#16 := by decide
  rw [hmask, and_assemble, BitVec.and_allOnes, BitVec.and_allOnes, sourceField_setWidth_eq_and]

/-- Nothing ignored: every other operation. -/
theorem and_all_bits (w : Word) : w &&& 0xFFFFFFFF#32 = assemble (opcodeField w) (registerField w) (dataField w) := by
  rw [assemble_fields]
  exact BitVec.and_allOnes

/-! ## The instruction built of two fields, and the two fields it is written with -/

/-- The encoder writes the target field, or 0 where there is none (R92). -/
theorem encodedRegister_eq_getD (i : Instr) : i.encodedRegister = i.targetField.getD 0 := by
  cases i <;> rfl

/-- A well-formed instruction is written with a register field in 0..7. -/
theorem registerFieldOk_encodedRegister {i : Instr} (h : i.wf = true) : registerFieldOk i.encodedRegister = true := by
  rw [encodedRegister_eq_getD]
  unfold Instr.wf at h
  cases ht : i.targetField with
  | none => decide
  | some rt => simpa [ht] using h

/-- The fields an instruction is written with build it again, for the source index by `sourceField_setWidth`. -/
theorem build_encoded_fields (i : Instr) : i.mnemonic.build i.encodedRegister i.encodedData = i := by
  cases i <;> simp [Instr.mnemonic, Instr.encodedRegister, Instr.encodedData, Mnemonic.build]

/-- The fields a built instruction is written with are the word's, its ignored bits cleared. -/
theorem assemble_build_fields (k : Mnemonic) (w : Word) :
    let i := k.build (registerField w) (dataField w)
    assemble (opcodeField w) i.encodedRegister i.encodedData = w &&& i.usedBits := by
  cases k
  case HALT | NOP => exact (and_opcode_bits w).symm
  case MOV | ADD | SUB | MUL => exact (and_register_source_bits w).symm
  case JMP => exact (and_opcode_data_bits w).symm
  all_goals exact (and_all_bits w).symm

/-! ## The decoder's verdicts (R90) -/

/-- A register field in 0..7 and an operation's own opcode: the instruction of that operation. -/
theorem decodeWith_of_opcode {m : OpcodeMap} (hm : Function.Injective m) {w : Word}
    (hr : registerFieldOk (registerField w) = true) {k : Mnemonic} (hk : opcodeField w = m k) :
    decodeWith m w = .instr (k.build (registerField w) (dataField w)) := by
  simp [decodeWith, hr, hk, OpcodeMap.lookup_self hm]

theorem decodeWith_of_unknown {m : OpcodeMap} {w : Word} (hr : registerFieldOk (registerField w) = true)
    (hk : ∀ k, m k ≠ opcodeField w) : decodeWith m w = .unknownOpcode (opcodeField w) := by
  simp [decodeWith, hr, OpcodeMap.lookup_eq_none.2 hk]

theorem decodeWith_of_outOfRange (m : OpcodeMap) {w : Word} (hr : ¬ registerFieldOk (registerField w) = true) :
    decodeWith m w = .outOfRangeRegister (registerField w) := by
  simp [decodeWith, hr]

/-! ## The bytes of an instruction (R82) -/

theorem wordByte_two_eq_dataField (w : Word) : wordByte w 2 = (dataField w).extractLsb' 0 8 := by
  apply BitVec.eq_of_getLsbD_eq
  intro i hi
  have : i < 16 := by omega
  simp [wordByte, dataField, hi, this]

theorem wordByte_three_eq_dataField (w : Word) : wordByte w 3 = (dataField w).extractLsb' 8 8 := by
  apply BitVec.eq_of_getLsbD_eq
  intro i hi
  have : 8 + i < 16 := by omega
  simp [wordByte, dataField, hi, this, ← Nat.add_assoc]

/-- The opcode, the register and the two bytes of the dataOperand, low byte first, are the bytes of the word. -/
theorem wordOfBytes_fields (o r : Byte) (d : Half) :
    wordOfBytes o r (d.extractLsb' 0 8) (d.extractLsb' 8 8) = assemble o r d := by
  have h := wordOfBytes_wordByte (assemble o r d)
  rwa [← opcodeField_eq_wordByte, ← registerField_eq_wordByte, wordByte_two_eq_dataField, wordByte_three_eq_dataField,
    opcodeField_assemble, registerField_assemble, dataField_assemble] at h

/-! ## The fields as shifts and masks (R83) -/

theorem opcodeField_setWidth (w : Word) : (opcodeField w).setWidth 32 = w &&& 0xFF#32 := by
  rw [and_opcode_bits]
  simp [assemble]

/-- `registerField w` is by definition the opcode field of `w >>> 8`. -/
theorem registerField_setWidth (w : Word) : (registerField w).setWidth 32 = (w >>> 8) &&& 0xFF#32 :=
  opcodeField_setWidth (w >>> 8)

theorem dataField_setWidth (w : Word) : (dataField w).setWidth 32 = w >>> 16 := by
  apply BitVec.eq_of_toNat_eq
  simp [dataField, Nat.shiftRight_eq_div_pow]
  omega

/-! ## The obligations -/

/-- Settles O1: the written word has the instruction's opcode and fields, and those build it again. -/
theorem decodeEncodeRoundTrip : Obligations.DecodeEncodeRoundTrip := by
  intro m hm i hi
  have hr : registerFieldOk (registerField (encodeWith m i)) = true := by
    simpa [encodeWith] using registerFieldOk_encodedRegister hi
  have hk : opcodeField (encodeWith m i) = m i.mnemonic := by simp [encodeWith]
  rw [decodeWith_of_opcode hm hr hk]
  simp [encodeWith, build_encoded_fields]

/-- Settles O2: a decoded instruction is built of the word's fields, and its operation has the word's opcode. -/
theorem reencodingKeepsExactlyTheUsedBits : Obligations.ReencodingKeepsExactlyTheUsedBits := by
  intro m w i h
  obtain ⟨hr, k, hk, rfl⟩ := decodeWith_eq_instr h
  refine ⟨Mnemonic.build_wf k _ ((registerFieldOk_iff _).2 hr), ?_⟩
  rw [encodeWith, Mnemonic.build_mnemonic, OpcodeMap.lookup_eq_some hk]
  exact assemble_build_fields k w

/-- Settles O3: one lemma for each verdict. -/
theorem decoderVerdicts : Obligations.DecoderVerdicts := by
  intro m w
  have hfield : registerFieldOk (registerField w) = true ↔ (registerField w).toNat ≤ 7 := decide_eq_true_iff
  refine ⟨fun hr => ?outOfRange, fun hr hk => ?unknown, fun hm hr k hk => ?instr⟩
  case outOfRange => exact decodeWith_of_outOfRange m (by rwa [hfield, not_le])
  case unknown => exact decodeWith_of_unknown (hfield.2 hr) hk
  case instr =>
    exact ⟨_, decodeWith_of_opcode hm (hfield.2 hr) hk.symm, Mnemonic.build_mnemonic _ _ _,
      fun _ => Mnemonic.build_targetField⟩

/-- Settles O4: each clause is `Mnemonic.build` at its operation. -/
theorem operandsOfEachInstruction : Obligations.OperandsOfEachInstruction := by
  intro m hm w hr r d s
  have hdecode (k : Mnemonic) : opcodeField w = m k → decodeWith m w = .instr (k.build r d) :=
    decodeWith_of_opcode hm (decide_eq_true hr)
  exact ⟨hdecode .HALT, hdecode .NOP, hdecode .LOAD_IMMEDIATE_1, hdecode .LOAD_IMMEDIATE_2, hdecode .LOAD_DIRECT,
    hdecode .STORE_DIRECT, hdecode .LOAD_INDIRECT, hdecode .STORE_INDIRECT, hdecode .MOV, hdecode .ADD, hdecode .SUB,
    hdecode .MUL, hdecode .JMP, hdecode .JNZ⟩

/-- Settles O5: the four bytes make `assemble o r d`, whose fields are `o`, `r` and `d`. -/
theorem instructionWordLayout : Obligations.InstructionWordLayout := by
  refine ⟨fun mem a o r d h0 h1 h2 h3 => ?bytes, fun w => ?fields⟩
  case bytes =>
    have hword : mem.readWord a = assemble o r d := by
      rw [Memory.readWord, h0, h1, h2, h3, wordOfBytes_fields]
    rw [hword]
    exact ⟨rfl, opcodeField_assemble o r d, registerField_assemble o r d, dataField_assemble o r d⟩
  case fields => exact ⟨opcodeField_setWidth w, registerField_setWidth w, dataField_setWidth w⟩

/-- Settles O6: each word is a literal, and the decoder runs on it. -/
theorem sampleWordsDecode : Obligations.SampleWordsDecode := by
  unfold Obligations.SampleWordsDecode
  decide

end Sys2Proof.Proofs
end

section
/-! PROOFS. The cycle: what the fetch leaves, the body it hands over to, what one step may change, and what a step
depends on (40_cycle.md R110 to R120). -/

open Sys2Proof Sys2Proof.Machine

namespace Sys2Proof.Proofs

/-! ## Alike answers

Two runs are compared answer by answer: each operation of a step takes states that differ in the inert fields only to
alike answers, so their sequence does. -/

/-- What the step depends on is equal: general registers, `pc`, memory (R119). -/
def SameCore (s t : State) : Prop := s.regs = t.regs ∧ s.pc = t.pc ∧ s.mem = t.mem

/-- Equal in every field but the flags, `sp` and `br`. -/
def EqualButInert (s t : State) : Prop := s = { t with flags := s.flags, sp := s.sp, br := s.br }

/-- What two alike word loads go on with: one word, and states that differ in the inert fields only. -/
inductive LoadedAlike : Word × State → Word × State → Prop where
  | intro (v : Word) {s t : State} (h : EqualButInert s t) : LoadedAlike (v, s) (v, t)

/-- Both go on, to values `R` relates; or both raise one error, leaving the same core; or both are one refusal. -/
inductive Alike {α : Type} (R : α → α → Prop) : Result α → Result α → Prop where
  | next {a b : α} (h : R a b) : Alike R (.next a) (.next b)
  | fault {f g : Fault} (hkind : f.kind = g.kind) (hinfo : f.info = g.info) (hafter : SameCore f.after g.after) :
      Alike R (.fault f) (.fault g)
  | refused (r : Refusal) : Alike R (.refused r) (.refused r)

theorem EqualButInert.exists_eq {s t : State} (h : EqualButInert s t) :
    ∃ flags sp br, s = { t with flags := flags, sp := sp, br := br } :=
  ⟨_, _, _, h⟩

theorem EqualButInert.sameCore {s t : State} (h : EqualButInert s t) : SameCore s t := by
  obtain ⟨flags, sp, br, rfl⟩ := h.exists_eq
  exact ⟨rfl, rfl, rfl⟩

/-- The fetch overwrites every latch, so the states it leaves agree on them too. -/
theorem SameCore.afterFetch {s t : State} (h : SameCore s t) (c : Config) :
    EqualButInert (s.afterFetch c) (t.afterFetch c) := by
  obtain ⟨hregs, hpc, hmem⟩ := h
  simp only [EqualButInert, State.afterFetch, State.fetchWord, hregs, hpc, hmem]

/-! ## The shared operations answer alike -/

theorem alike_andThen {α β : Type} {R : α → α → Prop} {S : β → β → Prop} {r₁ r₂ : Result α} {k₁ k₂ : α → Result β}
    (hr : Alike R r₁ r₂) (hk : ∀ a b, R a b → Alike S (k₁ a) (k₂ b)) :
    Alike S (andThen r₁ k₁) (andThen r₂ k₂) := by
  cases hr with
  | next h => exact hk _ _ h
  | fault hkind hinfo hafter => exact .fault hkind hinfo hafter
  | refused r => exact .refused r

theorem alike_withTarget {α : Type} {R : α → α → Prop} {s t : State} {field : Byte} {b₁ b₂ : Fin 8 → Result α}
    (h : SameCore s t) (hb : ∀ r, Alike R (b₁ r) (b₂ r)) : Alike R (withTarget field s b₁) (withTarget field t b₂) := by
  unfold withTarget
  split
  · exact hb _
  · exact .fault rfl rfl h

theorem alike_guardWord {α : Type} {R : α → α → Prop} {s t : State} {r₁ r₂ : Result α} (c : Config) (a : Word)
    (h : SameCore s t) (hr : Alike R r₁ r₂) : Alike R (guardWord c a s r₁) (guardWord c a t r₂) := by
  unfold guardWord
  split_ifs
  · exact hr
  · exact .refused _
  · exact .fault rfl rfl h

theorem alike_loadW {s t : State} (c : Config) (a : Word) (h : EqualButInert s t) :
    Alike LoadedAlike (loadW c a s) (loadW c a t) := by
  obtain ⟨flags, sp, br, rfl⟩ := h.exists_eq
  refine alike_andThen (R := Eq) (alike_guardWord c a h.sameCore (.next rfl)) ?_
  rintro v _ rfl
  exact .next (.intro v rfl)

theorem alike_storeW {s t : State} (c : Config) (a v : Word) (h : EqualButInert s t) :
    Alike EqualButInert (storeW c a v s) (storeW c a v t) := by
  obtain ⟨flags, sp, br, rfl⟩ := h.exists_eq
  refine alike_andThen (R := EqualButInert) (alike_guardWord c a h.sameCore (.next rfl)) fun u w huw => ?_
  obtain ⟨flags, sp, br, rfl⟩ := huw.exists_eq
  exact .next rfl

/-- A load that answers alike, and then writes its word to a register. -/
theorem alike_andThen_setReg {r₁ r₂ : Result (Word × State)} (h : Alike LoadedAlike r₁ r₂) (r : Fin 8) :
    Alike EqualButInert (andThen r₁ fun (v, s) => .next (s.setReg r v))
      (andThen r₂ fun (v, s) => .next (s.setReg r v)) := by
  refine alike_andThen h ?_
  rintro _ _ ⟨v, hst⟩
  obtain ⟨flags, sp, br, rfl⟩ := hst.exists_eq
  exact .next rfl

/-! ## The step answers alike -/

theorem alike_execWith {s t : State} (c : Config) (i : Instr) (h : EqualButInert s t) :
    Alike EqualButInert (execWith c i s) (execWith c i t) := by
  have hcore := h.sameCore
  have hget (r : Fin 8) : s.getReg r = t.getReg r := State.getReg_congr hcore.1 r
  cases i with
  | halt | nop => exact .next h
  | jmp target =>
    obtain ⟨flags, sp, br, rfl⟩ := h.exists_eq
    exact .next rfl
  | loadImmediate1 | loadImmediate2 | mov | add | sub | mul =>
    obtain ⟨flags, sp, br, rfl⟩ := h.exists_eq
    unfold execWith
    exact alike_withTarget hcore fun _ => .next rfl
  | jnz rt target =>
    simp only [execWith, execJnz, hget]
    refine alike_withTarget hcore fun r => ?_
    obtain ⟨flags, sp, br, rfl⟩ := h.exists_eq
    split_ifs <;> exact .next rfl
  | loadDirect rt addr =>
    exact alike_withTarget hcore fun r => alike_andThen_setReg (alike_loadW c _ h) r
  | storeDirect rt addr =>
    simp only [execWith, execStoreDirectWith, hget]
    exact alike_withTarget hcore fun r => alike_storeW c _ _ h
  | loadIndirect rt cell =>
    simp only [execWith, execLoadIndirectWith]
    refine alike_withTarget hcore fun r => alike_andThen (alike_loadW c _ h) ?_
    rintro _ _ ⟨ptr, hst⟩
    exact alike_andThen_setReg (alike_loadW c ptr hst) r
  | storeIndirect rt cell =>
    simp only [execWith, execStoreIndirectWith, hget]
    refine alike_withTarget hcore fun r => alike_andThen (alike_loadW c _ h) ?_
    rintro _ _ ⟨ptr, hst⟩
    exact alike_storeW c ptr _ hst

/-- The fetch is a guarded access at `pc`. -/
theorem fetch_eq_guardWord (c : Config) (s : State) : fetch c s = guardWord c s.pc s (.next (s.afterFetch c)) := by
  by_cases hr : Reaches c s.pc
  · by_cases hd : c.alignment ∣ s.pc.toNat
    · rw [fetch_of_fetchable ⟨hr, hd⟩, guardWord_of_accepts s _ ⟨hr, hd⟩]
    · rw [fetch_of_misaligned hr hd, guardWord_of_misaligned s _ hr hd]
  · rw [fetch_of_not_reaches hr, guardWord_of_not_reaches s _ hr]

theorem alike_fetch {s t : State} (c : Config) (h : SameCore s t) : Alike EqualButInert (fetch c s) (fetch c t) := by
  have hpc : s.pc = t.pc := h.2.1
  rw [fetch_eq_guardWord, fetch_eq_guardWord, hpc]
  exact alike_guardWord c _ h (.next (h.afterFetch c))

theorem alike_dispatchWith {s t : State} (c : Config) (h : EqualButInert s t) :
    Alike EqualButInert (dispatchWith c.opcodeMap (execWith c) s) (dispatchWith c.opcodeMap (execWith c) t) := by
  have hir : s.ir = t.ir := by rw [h]
  unfold dispatchWith
  rw [hir]
  split
  · exact alike_execWith c _ h
  · exact .fault rfl rfl h.sameCore
  · exact .fault rfl rfl h.sameCore

theorem alike_stepWith {s t : State} (c : Config) (h : SameCore s t) :
    Alike EqualButInert (stepWith c s) (stepWith c t) :=
  alike_andThen (alike_fetch c h) fun _ _ => alike_dispatchWith c

/-! ## What a body may change -/

theorem execEffect_mem_eq {c : Config} {i : Instr} {s t : State} (h : ExecEffect c i s t)
    (hd : i.mnemonic ≠ .STORE_DIRECT) (hi : i.mnemonic ≠ .STORE_INDIRECT) : t.mem = s.mem := by
  cases h with
  | nothing | reg | load | jump => rfl
  | store a v _ hstore =>
    obtain ⟨rt, addr, rfl, -⟩ | ⟨rt, cell, rfl, -⟩ := hstore
    · exact absurd rfl hd
    · exact absurd rfl hi

/-- A STORE_DIRECT changes its word only, whichever of the effects it has. -/
theorem execEffect_storeDirect {c : Config} {rt : Byte} {addr : Half} {s t : State}
    (h : ExecEffect c (.storeDirect rt addr) s t) : SameMemoryBut (directAddress addr) s t := by
  cases h with
  | nothing | reg | load | jump => exact fun _ _ _ _ _ => rfl
  | store a v _ hstore =>
    obtain ⟨_, _, hi, rfl⟩ | ⟨_, _, hi, -⟩ := hstore
    · cases hi
      exact sameMemoryBut_of_writeWord rfl
    · cases hi

/-- A STORE_INDIRECT changes the word its pointer names only. -/
theorem execEffect_storeIndirect {c : Config} {rt : Byte} {cell : Half} {s t : State}
    (h : ExecEffect c (.storeIndirect rt cell) s t) : SameMemoryBut (indirectAddress cell s) s t := by
  cases h with
  | nothing | reg | load | jump => exact fun _ _ _ _ _ => rfl
  | store a v _ hstore =>
    obtain ⟨_, _, hi, -⟩ | ⟨_, _, hi, rfl⟩ := hstore
    · cases hi
    · cases hi
      exact sameMemoryBut_of_writeWord rfl

/-- Only the register the target operand names is written. -/
theorem execEffect_getReg {c : Config} {i : Instr} {s t : State} (h : ExecEffect c i s t) {q : Fin 8}
    (hq : i.targetField.map BitVec.toNat ≠ some q.val) : t.getReg q = s.getReg q := by
  have hne {r : Fin 8} (hr : i.targetField.map BitVec.toNat = some r.val) : q ≠ r := by
    rintro rfl
    exact hq hr
  cases h with
  | nothing | store | jump => rfl
  | reg r v hr => exact State.getReg_setReg_ne s v (hne hr)
  | load r a v hr => exact State.getReg_setReg_ne _ v (hne hr)

/-- An effect writes at most one of the registers, `pc` and memory: it keeps two of the three (R120). -/
theorem execEffect_keeps_two {c : Config} {i : Instr} {s t : State} (h : ExecEffect c i s t) :
    (t.regs = s.regs ∧ t.mem = s.mem) ∨ (t.pc = s.pc ∧ t.mem = s.mem) ∨ (t.pc = s.pc ∧ t.regs = s.regs) := by
  cases h with
  | nothing | jump => exact .inl ⟨rfl, rfl⟩
  | reg | load => exact .inr (.inl ⟨rfl, rfl⟩)
  | store => exact .inr (.inr ⟨rfl, rfl⟩)

/-! ## The step by the word it fetched -/

/-- A word that can be fetched and decodes has its body run on the state the fetch leaves (R110, R115). -/
theorem stepWith_of_instr {c : Config} {s : State} {i : Instr} (hf : s.fetchable c)
    (hd : decodeWith c.opcodeMap s.fetchWord = .instr i) : stepWith c s = execWith c i (s.afterFetch c) :=
  (stepWith_of_fetchable hf).trans (dispatchWith_of_instr hd)

/-- The driver is handed Ok exactly for a next state, with what that state says of HALT (R8, R117). -/
theorem stepResult_eq_ok_iff {c : Config} {s t : State} {halted : Bool} :
    stepResult c s = .ok halted t ↔ stepWith c s = .next t ∧ halted = t.halted c.opcodeMap := by
  unfold stepResult
  cases stepWith c s with
  | next u =>
    simp only [observe, StepResult.ok.injEq, Host.Outcome.next.injEq]
    rw [and_comm]
    exact and_congr_right fun hu => by rw [hu, eq_comm]
  | fault f => simp [observe]
  | refused r => simp [observe]

/-- The opcode of a word that decodes is that of the instruction's operation. -/
theorem opcodeField_of_decodeWith {m : OpcodeMap} {w : Word} {i : Instr} (h : decodeWith m w = .instr i) :
    opcodeField w = m i.mnemonic := by
  obtain ⟨-, k, hk, rfl⟩ := decodeWith_eq_instr h
  rw [Mnemonic.build_mnemonic, OpcodeMap.lookup_eq_some hk]

/-- Where a word that decodes has an operation's opcode, the instruction is that operation on the word's fields. -/
theorem eq_build_of_decodeWith {m : OpcodeMap} (hm : Function.Injective m) {w : Word} {i : Instr} {k : Mnemonic}
    (h : decodeWith m w = .instr i) (hk : opcodeField w = m k) : i = k.build (registerField w) (dataField w) := by
  obtain ⟨hr, -⟩ := decodeWith_eq_instr h
  rw [decodeWith_of_opcode hm ((registerFieldOk_iff _).2 hr) hk] at h
  cases h
  rfl

/-- The register an instruction may write is the one the word's register field names. -/
theorem targetField_ne_of_decodeWith {m : OpcodeMap} {w : Word} {i : Instr} {n : Nat} (h : decodeWith m w = .instr i)
    (hn : n ≠ (registerField w).toNat) : i.targetField.map BitVec.toNat ≠ some n := by
  obtain ⟨-, k, -, rfl⟩ := decodeWith_eq_instr h
  intro ht
  obtain ⟨rt, hrt, rfl⟩ := Option.map_eq_some_iff.1 ht
  exact hn (congrArg _ (Mnemonic.build_targetField hrt))

theorem afterFetch_pc_toNat (c : Config) (s : State) : (s.afterFetch c).pc.toNat = (s.pc.toNat + 4) % 2 ^ 32 := by
  simp

/-- A step keeps the registers and memory, or goes on in sequence and keeps one of them (R120). -/
theorem stepWith_keeps_two {c : Config} {s t : State} (h : stepWith c s = .next t) :
    (SameRegs s t ∧ SameMemory s t) ∨ (t.pc.toNat = (s.pc.toNat + 4) % 2 ^ 32 ∧ (SameMemory s t ∨ SameRegs s t)) := by
  obtain ⟨-, i, -, hexec⟩ := stepWith_eq_next h
  have hregs (e : t.regs = (s.afterFetch c).regs) : SameRegs s t := State.getReg_congr e
  have hmem (e : t.mem = (s.afterFetch c).mem) : SameMemory s t := fun b => congrArg (Memory.readByte · b) e
  have hpc (e : t.pc = (s.afterFetch c).pc) := (congrArg BitVec.toNat e).trans (afterFetch_pc_toNat c s)
  obtain ⟨er, em⟩ | ⟨ep, em⟩ | ⟨ep, er⟩ := execEffect_keeps_two (execWith_effect hexec)
  · exact .inl ⟨hregs er, hmem em⟩
  · exact .inr ⟨hpc ep, .inl (hmem em)⟩
  · exact .inr ⟨hpc ep, .inr (hregs er)⟩

/-! ## The obligations -/

/-- Settles O51: the fetch, the dispatch and every body answer states of one core alike. -/
theorem stepIgnoresLatchesAndFlags : Obligations.StepIgnoresLatchesAndFlags := by
  intro c s₁ s₂ hregs hpc hmem
  have halike := alike_stepWith c ⟨hregs, hpc, hmem⟩
  generalize stepWith c s₁ = r₁, stepWith c s₂ = r₂ at halike ⊢
  refine ⟨?next, ?fault, ?refused⟩
  case next =>
    rintro t₁ rfl
    cases halike with
    | next ht => exact ⟨_, rfl, ht⟩
  case fault =>
    rintro f₁ rfl
    cases halike with
    | fault hkind hinfo hafter => exact ⟨_, rfl, hkind, hinfo, hafter⟩
  case refused =>
    rintro r rfl
    cases halike with
    | refused => rfl

/-- Settles O40, by cases on the effect the instruction had. -/
theorem onlyStoresChangeMemory : Obligations.OnlyStoresChangeMemory := by
  intro i s t h
  have heffect := exec_effect h
  refine ⟨execEffect_mem_eq heffect, ?direct, ?indirect⟩
  case direct =>
    rintro rt addr rfl
    exact execEffect_storeDirect heffect
  case indirect =>
    rintro rt cell rfl
    exact execEffect_storeIndirect heffect

/-- Settles O48: Ok is handed over for every next state, whose `ir` holds the word executed. -/
theorem haltedReportedExactlyForHalt : Obligations.HaltedReportedExactlyForHalt := by
  refine fun c s t => ⟨fun h => ⟨_, stepResult_eq_ok_iff.2 ⟨h, rfl⟩⟩, fun halted h => ?_⟩
  obtain ⟨hstep, rfl⟩ := stepResult_eq_ok_iff.1 h
  refine ⟨?_, fun i => stepWith_of_instr⟩
  rw [halted_of_stepWith_eq_next hstep, beq_iff_eq, State.fetchWord]

/-- Settles O50: the effect of the decoded body, on the state the fetch leaves. -/
theorem stepChangesAtMostOneThing : Obligations.StepChangesAtMostOneThing := by
  intro c hm s t h
  obtain ⟨-, i, hdecode, hexec⟩ := stepWith_eq_next h
  have heffect := execWith_effect hexec
  obtain ⟨hinert, hir, hrop, hdop⟩ := execEffect_sameInert_sameFetchLatches heffect
  have hopcode := opcodeField_of_decodeWith hdecode
  have htwo := stepWith_keeps_two h
  refine ⟨hinert, hir, hrop, hdop, fun q hq => ?register, fun hd hi => ?noStore, fun hd => ?direct, fun hi => ?indirect,
    fun hregs => ?registerChanged, fun hmem => ?memoryChanged⟩
  case register => exact execEffect_getReg heffect (targetField_ne_of_decodeWith hdecode hq)
  case noStore =>
    rw [hopcode] at hd hi
    have hmem := execEffect_mem_eq heffect (ne_of_apply_ne _ hd) (ne_of_apply_ne _ hi)
    exact fun b => congrArg (Memory.readByte · b) hmem
  case direct =>
    obtain rfl := eq_build_of_decodeWith hm hdecode hd
    exact execEffect_storeDirect (s := s.afterFetch c) heffect
  case indirect =>
    obtain rfl := eq_build_of_decodeWith hm hdecode hi
    exact execEffect_storeIndirect (s := s.afterFetch c) heffect
  case registerChanged =>
    obtain ⟨hr, -⟩ | ⟨hpc, hm | hr⟩ := htwo
    · exact absurd hr hregs
    · exact ⟨hm, hpc⟩
    · exact absurd hr hregs
  case memoryChanged =>
    obtain ⟨-, hm⟩ | ⟨hpc, hm | hr⟩ := htwo
    · exact absurd hm hmem
    · exact absurd hm hmem
    · exact ⟨hr, hpc⟩

/-- Settles O41: the fields of `afterFetch`, the latched ones as shifts and masks of the word. -/
theorem fetchSplitsTheWordAndAdvances : Obligations.FetchSplitsTheWordAndAdvances :=
  fun c s hf => ⟨s.afterFetch c, fetch_of_fetchable hf, rfl, registerField_setWidth _, dataField_setWidth _,
    afterFetch_pc_toNat c s, fun _ => rfl, fun _ => rfl, rfl, rfl, rfl⟩

/-- Settles O42, under any parameters, and so at the default ones. -/
theorem stepRunsTheDecodedInstruction : Obligations.StepRunsTheDecodedInstruction := by
  refine ⟨fun c s i => stepWith_of_instr, fun s i hpc hdecode => ?_⟩
  rw [step_eq_stepWith, exec_eq_execWith]
  exact stepWith_of_instr ((accepts_default _).2 hpc) hdecode

end Sys2Proof.Proofs
end

section
/-! PROOFS. HALT and NOP: the bodies that do nothing, and the step that leaves what the fetch left
(41_halt_nop.md R130, R131). -/

open Sys2Proof Sys2Proof.Machine

namespace Sys2Proof.Proofs

/-- HALT's opcode decodes to HALT under any map, injective or not: it is the first row looked up. -/
theorem decodeWith_of_haltOpcode {m : OpcodeMap} {w : Word} (hr : registerFieldOk (registerField w) = true)
    (hk : opcodeField w = m .HALT) : decodeWith m w = .instr .halt := by
  simp [decodeWith, hr, hk, OpcodeMap.lookup_halt, Mnemonic.build]

@[simp] theorem execWith_halt (c : Config) (s : State) : execWith c .halt s = .next s := rfl

@[simp] theorem execWith_nop (c : Config) (s : State) : execWith c .nop s = .next s := rfl

/-- `t` is `s` but for what a fetch writes: the latches, and `pc` (R111 to R113). -/
def OnlyFetched (c : Config) (s t : State) : Prop :=
  SameRegs s t ∧ SameMemory s t ∧ SameInert s t ∧
    t.mar = c.marAfter s.pc s.fetchWord ∧ t.mbr = c.mbrAfter s.pc s.fetchWord ∧ t.ir = s.fetchWord ∧
    t.rop = registerField s.fetchWord ∧ t.dop = dataField s.fetchWord ∧ t.pc.toNat = (s.pc.toNat + 4) % 2 ^ 32

theorem onlyFetched_afterFetch (c : Config) (s : State) : OnlyFetched c s (s.afterFetch c) :=
  ⟨State.getReg_afterFetch c s, fun _ => rfl, ⟨rfl, rfl, rfl⟩, rfl, rfl, rfl, rfl, rfl, afterFetch_pc_toNat c s⟩

/-- Where the decoded body does nothing, the step succeeds and leaves what the fetch left; its boolean is that of the
opcode fetched (R117). -/
theorem stepResult_of_idle {c : Config} {s : State} {i : Instr} (hf : s.fetchable c)
    (hd : decodeWith c.opcodeMap s.fetchWord = .instr i)
    (hidle : execWith c i (s.afterFetch c) = .next (s.afterFetch c)) :
    ∃ t, stepResult c s = .ok (opcodeField s.fetchWord == c.opcodeMap .HALT) t ∧ OnlyFetched c s t := by
  have hstep : stepWith c s = .next (s.afterFetch c) := (stepWith_of_instr hf hd).trans hidle
  exact ⟨_, stepResult_eq_ok_iff.2 ⟨hstep, (halted_of_stepWith_eq_next hstep).symm⟩, onlyFetched_afterFetch c s⟩

/-- Settles O22: a HALT word decodes under any map, its body does nothing, and its opcode is the one reported. -/
theorem haltHasNoEffectAndReportsTrue : Obligations.HaltHasNoEffectAndReportsTrue := by
  refine ⟨fun s => (exec_eq_execWith .halt s).trans (execWith_halt _ s), fun c s hf hk hr => ?_⟩
  have hdecode := decodeWith_of_haltOpcode ((registerFieldOk_iff _).2 (Nat.lt_succ_of_le hr)) hk
  have hreported : (opcodeField s.fetchWord == c.opcodeMap .HALT) = true := beq_iff_eq.2 hk
  exact hreported ▸ stepResult_of_idle hf hdecode (execWith_halt c _)

/-- Settles O23: injectivity makes NOP's opcode decode to NOP, and differ from HALT's. -/
theorem nopHasNoEffectAndReportsFalse : Obligations.NopHasNoEffectAndReportsFalse := by
  refine ⟨fun s => (exec_eq_execWith .nop s).trans (execWith_nop _ s), fun c s hm hf hk hr => ?_⟩
  have hdecode := decodeWith_of_opcode hm ((registerFieldOk_iff _).2 (Nat.lt_succ_of_le hr)) hk
  have hreported : (opcodeField s.fetchWord == c.opcodeMap .HALT) = false :=
    beq_eq_false_iff_ne.2 (hk ▸ hm.ne (by decide))
  exact hreported ▸ stepResult_of_idle hf hdecode (execWith_nop c _)

end Sys2Proof.Proofs
end

section
/-! PROOFS. The immediate loads: each puts the word together from one half of its own and the half its target keeps
(42_load_immediate.md R140 to R142). -/

open Sys2Proof Sys2Proof.Machine

namespace Sys2Proof.Proofs

/-! ## The halves of a word -/

/-- R142's word is its two halves one after the other. -/
theorem append_eq_or_shiftLeft (lo hi : Half) : hi ++ lo = lo.setWidth 32 ||| (hi.setWidth 32 <<< 16) := by
  rw [BitVec.append_def, BitVec.shiftLeftZeroExtend_eq, BitVec.setWidth'_eq, BitVec.or_comm]

theorem zext_eq_append (n : Half) : zext n = 0#16 ++ n := BitVec.setWidth_eq_append (by decide)

theorem zext_shiftLeft_eq_append (n : Half) : zext n <<< 16 = n ++ 0#16 := by
  simpa [zext] using (append_eq_or_shiftLeft 0 n).symm

/-- Masking a word masks each half by the mask's own. -/
theorem and_append_halves (w : Word) (hi lo : Half) :
    w &&& (hi ++ lo) = (w.extractLsb' 16 16 &&& hi) ++ (w.extractLsb' 0 16 &&& lo) := by
  have hw : w.extractLsb' 16 16 ++ w.extractLsb' 0 16 = w := BitVec.extractLsb'_append_extractLsb'
  rw [← BitVec.and_append, hw]

/-- R140's mask keeps the high half. -/
theorem and_high_bits (w : Word) : w &&& 0xFFFF0000#32 = w.extractLsb' 16 16 ++ 0#16 := by
  have hmask : 0xFFFF0000#32 = BitVec.allOnes 16 ++ 0#16 := rfl
  rw [hmask, and_append_halves, BitVec.and_allOnes, BitVec.and_zero]

/-- R141's mask keeps the low half. -/
theorem and_low_bits (w : Word) : w &&& 0x0000FFFF#32 = 0#16 ++ w.extractLsb' 0 16 := by
  have hmask : 0x0000FFFF#32 = 0#16 ++ BitVec.allOnes 16 := rfl
  rw [hmask, and_append_halves, BitVec.and_allOnes, BitVec.and_zero]

theorem withLowHalf_eq_append (w : Word) (n : Half) : withLowHalf w n = w.extractLsb' 16 16 ++ n := by
  rw [withLowHalf, and_high_bits, zext_eq_append, BitVec.or_append, BitVec.or_zero, BitVec.zero_or]

theorem withHighHalf_eq_append (w : Word) (n : Half) : withHighHalf w n = n ++ w.extractLsb' 0 16 := by
  rw [withHighHalf, and_low_bits, zext_shiftLeft_eq_append, BitVec.or_append, BitVec.or_zero, BitVec.zero_or]

/-! ## What each placement writes and keeps -/

@[simp] theorem low_withLowHalf (w : Word) (n : Half) : (withLowHalf w n).extractLsb' 0 16 = n := by
  rw [withLowHalf_eq_append, BitVec.extractLsb'_append_eq_right]

@[simp] theorem high_withLowHalf (w : Word) (n : Half) :
    (withLowHalf w n).extractLsb' 16 16 = w.extractLsb' 16 16 := by
  rw [withLowHalf_eq_append, BitVec.extractLsb'_append_eq_left]

@[simp] theorem high_withHighHalf (w : Word) (n : Half) : (withHighHalf w n).extractLsb' 16 16 = n := by
  rw [withHighHalf_eq_append, BitVec.extractLsb'_append_eq_left]

@[simp] theorem low_withHighHalf (w : Word) (n : Half) :
    (withHighHalf w n).extractLsb' 0 16 = w.extractLsb' 0 16 := by
  rw [withHighHalf_eq_append, BitVec.extractLsb'_append_eq_right]

/-- The second load keeps the half the first has written (R142). -/
theorem withHighHalf_withLowHalf (w : Word) (lo hi : Half) : withHighHalf (withLowHalf w lo) hi = hi ++ lo := by
  rw [withHighHalf_eq_append, low_withLowHalf]

theorem withLowHalf_withHighHalf (w : Word) (lo hi : Half) : withLowHalf (withHighHalf w hi) lo = hi ++ lo := by
  rw [withLowHalf_eq_append, high_withHighHalf]

/-! ## The bodies -/

/-- A register write is the whole frame of a body that accesses no memory. -/
theorem onlyRegChanged_setReg (s : State) (r : Fin 8) (v : Word) : OnlyRegChanged r s (s.setReg r v) :=
  ⟨fun _ hq => State.getReg_setReg_ne s v hq, rfl, ⟨⟨rfl, rfl, rfl⟩, ⟨rfl, rfl, rfl⟩, rfl, rfl⟩, fun _ => rfl⟩

theorem exec_loadImmediate1 {rt : Byte} (imm : Half) (s : State) (h : rt.toNat < 8) :
    exec (.loadImmediate1 rt imm) s =
      .next (s.setReg ⟨rt.toNat, h⟩ (withLowHalf (s.getReg ⟨rt.toNat, h⟩) imm)) :=
  (exec_eq_execWith _ s).trans (execWith_loadImmediate1 _ imm s h)

theorem exec_loadImmediate2 {rt : Byte} (imm : Half) (s : State) (h : rt.toNat < 8) :
    exec (.loadImmediate2 rt imm) s =
      .next (s.setReg ⟨rt.toNat, h⟩ (withHighHalf (s.getReg ⟨rt.toNat, h⟩) imm)) :=
  (exec_eq_execWith _ s).trans (execWith_loadImmediate2 _ imm s h)

/-! ## The obligations -/

/-- Settles O26: each load reads its target as the other has left it, and the two placements compose. -/
theorem immediateLoadsCompose : Obligations.ImmediateLoadsCompose := by
  intro rt lo hi s h
  rw [← append_eq_or_shiftLeft]
  refine ⟨⟨_, _, exec_loadImmediate1 lo s h, exec_loadImmediate2 hi _ h, ?lowFirst⟩,
    ⟨_, _, exec_loadImmediate2 hi s h, exec_loadImmediate1 lo _ h, ?highFirst⟩⟩
  case lowFirst => simp only [State.getReg_setReg_self, withHighHalf_withLowHalf]
  case highFirst => simp only [State.getReg_setReg_self, withLowHalf_withHighHalf]

/-- Settles O24: the target holds `withLowHalf` of its old value, and nothing else is written. -/
theorem loadImmediate1SetsLowHalf : Obligations.LoadImmediate1SetsLowHalf := by
  intro rt imm s h
  refine ⟨fun m => rfl, _, exec_loadImmediate1 imm s h, ?_⟩
  rw [State.getReg_setReg_self]
  exact ⟨rfl, low_withLowHalf _ imm, high_withLowHalf _ imm, onlyRegChanged_setReg s _ _⟩

/-- Settles O25: the target holds `withHighHalf` of its old value, and nothing else is written. -/
theorem loadImmediate2SetsHighHalf : Obligations.LoadImmediate2SetsHighHalf := by
  intro rt imm s h
  refine ⟨fun m => rfl, _, exec_loadImmediate2 imm s h, ?_⟩
  rw [State.getReg_setReg_self]
  exact ⟨rfl, high_withHighHalf _ imm, low_withHighHalf _ imm, onlyRegChanged_setReg s _ _⟩

end Sys2Proof.Proofs
end

section
/-! PROOFS. The loads and stores: each is one word access of the default machine, at its address field or at the word
its pointer cell holds, and so changes what that one access does (43_load_store.md R150 to R154). -/

open Sys2Proof Sys2Proof.Machine

namespace Sys2Proof.Proofs

/-! ## What the access of a load or of a store changes -/

/-- From `s` to `t` register `r` took the word at `a`, `mar` and `mbr` latched that access, and nothing else changed
(R60, R120). -/
def WordLoaded (r : Fin 8) (a : Word) (s t : State) : Prop :=
  t.getReg r = s.mem.readWord a ∧ t.mar = a ∧ t.mbr = s.mem.readWord a ∧
    SameRegsBut r s t ∧ t.pc = s.pc ∧ SameInert s t ∧ SameFetchLatches s t ∧ SameMemory s t

/-- From `s` to `t` the word at `a` became `v`, `mar` and `mbr` latched that access, and nothing else changed
(R60, R120). -/
def WordStored (a v : Word) (s t : State) : Prop :=
  t.mem.readWord a = v ∧ SameMemoryBut a s t ∧ t.mar = a ∧ t.mbr = v ∧
    SameRegs s t ∧ t.pc = s.pc ∧ SameInert s t ∧ SameFetchLatches s t

theorem wordLoaded_setReg_latchAccess (r : Fin 8) (a : Word) (s : State) :
    WordLoaded r a s ((s.latchAccess Config.default a (s.mem.readWord a)).setReg r (s.mem.readWord a)) :=
  ⟨State.getReg_setReg_self _ _ _, rfl, rfl, fun _ hq => State.getReg_setReg_ne _ _ hq, rfl, ⟨rfl, rfl, rfl⟩,
    ⟨rfl, rfl, rfl⟩, fun _ => rfl⟩

theorem wordStored_latchAccess_writeWord (a v : Word) (s : State) :
    WordStored a v s (State.latchAccess Config.default { s with mem := s.mem.writeWord a v } a v) :=
  ⟨Memory.readWord_writeWord_self _ _ _, sameMemoryBut_of_writeWord rfl, rfl, rfl, fun _ => rfl, rfl, ⟨rfl, rfl, rfl⟩,
    ⟨rfl, rfl, rfl⟩⟩

/-! ## The bodies -/

/-- A direct load reaches its word whatever its address field, which is far below the top (R154). -/
theorem exec_loadDirect_wordLoaded {rt : Byte} (addr : Half) (s : State) (h : rt.toNat < 8) :
    ∃ t, exec (.loadDirect rt addr) s = .next t ∧ WordLoaded ⟨rt.toNat, h⟩ (directAddress addr) s t := by
  have haddr := (accepts_default _).2 (directAddress_le addr)
  exact ⟨_, (exec_eq_execWith _ s).trans (execWith_loadDirect s h haddr), wordLoaded_setReg_latchAccess _ _ s⟩

theorem exec_storeDirect_wordStored {rt : Byte} (addr : Half) (s : State) (h : rt.toNat < 8) :
    ∃ t, exec (.storeDirect rt addr) s = .next t ∧
      WordStored (directAddress addr) (s.getReg ⟨rt.toNat, h⟩) s t := by
  have haddr := (accepts_default _).2 (directAddress_le addr)
  exact ⟨_, (exec_eq_execWith _ s).trans (execWith_storeDirect s h haddr), wordStored_latchAccess_writeWord _ _ s⟩

/-- The pointer cell can always be read, so an indirect access depends on its pointer only; the second access's latches
replace those of the pointer's read. -/
theorem exec_loadIndirect_wordLoaded {rt : Byte} {cell : Half} {s : State} (h : rt.toNat < 8)
    (hp : (indirectAddress cell s).toNat ≤ 0xFFFFFFFC) :
    ∃ t, exec (.loadIndirect rt cell) s = .next t ∧ WordLoaded ⟨rt.toNat, h⟩ (indirectAddress cell s) s t := by
  have hcell := (accepts_default _).2 (pointerCell_le cell)
  have hptr := (accepts_default _).2 hp
  exact ⟨_, (exec_eq_execWith _ s).trans (execWith_loadIndirect h hcell hptr), wordLoaded_setReg_latchAccess _ _ s⟩

theorem exec_storeIndirect_wordStored {rt : Byte} {cell : Half} {s : State} (h : rt.toNat < 8)
    (hp : (indirectAddress cell s).toNat ≤ 0xFFFFFFFC) :
    ∃ t, exec (.storeIndirect rt cell) s = .next t ∧
      WordStored (indirectAddress cell s) (s.getReg ⟨rt.toNat, h⟩) s t := by
  have hcell := (accepts_default _).2 (pointerCell_le cell)
  have hptr := (accepts_default _).2 hp
  exact ⟨_, (exec_eq_execWith _ s).trans (execWith_storeIndirect h hcell hptr),
    wordStored_latchAccess_writeWord _ _ s⟩

/-- Past the last word the second access raises, and only the pointer's read has latched (R186). -/
theorem exec_indirect_of_pointer_past_top {rt : Byte} {cell : Half} {s : State} {i : Instr} (h : rt.toNat < 8)
    (hp : 0xFFFFFFFC < (indirectAddress cell s).toNat)
    (hi : i = .loadIndirect rt cell ∨ i = .storeIndirect rt cell) :
    exec i s =
      .fault (.addressOverflow (indirectAddress cell s)
        (s.latchAccess Config.default (pointerCell cell) (indirectAddress cell s))) := by
  have hcell := (accepts_default _).2 (pointerCell_le cell)
  have hreach : ¬ Reaches Config.default (indirectAddress cell s) := by rwa [reaches_default, not_le]
  exact (exec_eq_execWith i s).trans (execWith_indirect_of_pointer_not_reaches h hcell hreach hi)

/-! ## The obligations -/

/-- Settles O27: a direct address is the zero-extended field, and its word is always there. -/
theorem loadDirectLoadsTheWord : Obligations.LoadDirectLoadsTheWord :=
  fun _ => exec_loadDirect_wordLoaded

/-- Settles O28: the store's effect at the direct address, which as a number is the field. -/
theorem storeDirectStoresTheRegister : Obligations.StoreDirectStoresTheRegister := by
  intro rt addr s h
  obtain ⟨t, hexec, hword, hframe⟩ := exec_storeDirect_wordStored addr s h
  exact ⟨t, hexec, hword, zext_toNat addr, hframe⟩

/-- Settles O29: the load's effect at the word the pointer cell holds. -/
theorem loadIndirectLoadsThroughThePointer : Obligations.LoadIndirectLoadsThroughThePointer :=
  fun _ _ _ h hp => exec_loadIndirect_wordLoaded h hp

/-- Settles O30: the store's effect at the word the pointer cell holds before it. -/
theorem storeIndirectStoresThroughThePointer : Obligations.StoreIndirectStoresThroughThePointer :=
  fun _ _ _ h hp => ⟨rfl, exec_storeIndirect_wordStored h hp⟩

/-- Settles O31: both instructions raise at the same second access. -/
theorem pointerPastTheTopFaults : Obligations.PointerPastTheTopFaults :=
  fun _ _ _ h hp =>
    ⟨exec_indirect_of_pointer_past_top h hp (.inl rfl), exec_indirect_of_pointer_past_top h hp (.inr rfl)⟩

end Sys2Proof.Proofs
end

section
/-! PROOFS. The register-to-register instructions: MOV, ADD, SUB, MUL are each one register write of a value that both
old operands determine, and differ in the arithmetic of that value only (44_register_alu.md R160 to R165). -/

open Sys2Proof Sys2Proof.Machine

namespace Sys2Proof.Proofs

/-! ## What the four instructions share -/

/-- The layout of R82 with a 3-bit source in the dataOperand field (R160). -/
theorem assemble_source (o rt : Byte) (rs : BitVec 3) :
    assemble o rt (rs.setWidth 16) = o.setWidth 32 ||| (rt.setWidth 32 <<< 8) ||| (rs.setWidth 32 <<< 16) := by
  rw [assemble, BitVec.setWidth_setWidth (by decide)]

/-- The write-back sets no flag, so it is the register write (R165). -/
theorem writeAlu_eq_setReg (r : Fin 8) (a b v : Word) (s : State) : writeAlu r a b v s = s.setReg r v := rfl

/-- BitVec.toNat_sub over the integers, as R163 has it. -/
theorem toNat_sub_eq_emod (a b : Word) : ((a - b).toNat : Int) = (a.toNat - b.toNat : Int) % 2 ^ 32 := by
  rw [BitVec.toNat_sub]
  omega

/-! ## The bodies -/

theorem exec_mov {rt : Byte} (rs : BitVec 3) (s : State) (h : rt.toNat < 8) :
    exec (.mov rt rs) s = .next (s.setReg ⟨rt.toNat, h⟩ (s.getReg ⟨rs.toNat, rs.isLt⟩)) :=
  (exec_eq_execWith _ s).trans (execWith_mov _ rs s h)

theorem exec_add {rt : Byte} (rs : BitVec 3) (s : State) (h : rt.toNat < 8) :
    exec (.add rt rs) s =
      .next (s.setReg ⟨rt.toNat, h⟩ (s.getReg ⟨rt.toNat, h⟩ + s.getReg ⟨rs.toNat, rs.isLt⟩)) := by
  rw [exec_eq_execWith, execWith_add _ rs s h, writeAlu_eq_setReg]
  rfl

theorem exec_sub {rt : Byte} (rs : BitVec 3) (s : State) (h : rt.toNat < 8) :
    exec (.sub rt rs) s =
      .next (s.setReg ⟨rt.toNat, h⟩ (s.getReg ⟨rt.toNat, h⟩ - s.getReg ⟨rs.toNat, rs.isLt⟩)) := by
  rw [exec_eq_execWith, execWith_sub _ rs s h, writeAlu_eq_setReg]
  rfl

theorem exec_mul {rt : Byte} (rs : BitVec 3) (s : State) (h : rt.toNat < 8) :
    exec (.mul rt rs) s =
      .next (s.setReg ⟨rt.toNat, h⟩ (s.getReg ⟨rt.toNat, h⟩ * s.getReg ⟨rs.toNat, rs.isLt⟩)) := by
  rw [exec_eq_execWith, execWith_mul _ rs s h, writeAlu_eq_setReg]
  rfl

/-! ## The obligations -/

/-- Settles O32: the body is one register write, of the source's value. -/
theorem movCopiesTheSource : Obligations.MovCopiesTheSource :=
  fun _ rs s h => ⟨fun _ => assemble_source _ _ rs, _, exec_mov rs s h, State.getReg_setReg_self s _ _,
    onlyRegChanged_setReg s _ _⟩

/-- Settles O33: the body is one register write, of the sum of words, which is the sum of naturals modulo 2^32. -/
theorem addIsModularSum : Obligations.AddIsModularSum := by
  intro rt rs s h
  refine ⟨fun _ => assemble_source _ _ rs, _, exec_add rs s h, ?_, onlyRegChanged_setReg s _ _⟩
  rw [State.getReg_setReg_self, BitVec.toNat_add]

/-- Settles O34: the body is one register write, of the difference of words, target minus source. -/
theorem subIsModularDifference : Obligations.SubIsModularDifference := by
  intro rt rs s h
  refine ⟨fun _ => assemble_source _ _ rs, _, exec_sub rs s h, ?_, onlyRegChanged_setReg s _ _⟩
  rw [State.getReg_setReg_self, toNat_sub_eq_emod]

/-- Settles O35: the body is one register write, of the product of words, the exact product modulo 2^32. -/
theorem mulIsModularProduct : Obligations.MulIsModularProduct := by
  intro rt rs s h
  refine ⟨fun _ => assemble_source _ _ rs, _, exec_mul rs s h, ?_, onlyRegChanged_setReg s _ _⟩
  rw [State.getReg_setReg_self, BitVec.toNat_mul]

end Sys2Proof.Proofs
end

section
/-! PROOFS. Control transfer: the bodies of JMP and JNZ as the one write of `pc` they make, and the steps that leave the
sequence (45_control_transfer.md R170 to R172). -/

open Sys2Proof Sys2Proof.Machine

namespace Sys2Proof.Proofs

/-! ## The jump -/

theorem jumpTarget_toNat (target : Half) : (jumpTarget target).toNat = target.toNat := zext_toNat target

/-- All but `pc`: the frame of a jump, taken or not. -/
def SameButPc (s t : State) : Prop := SameRegs s t ∧ SameRest s t ∧ SameMemory s t

theorem sameButPc_refl (s : State) : SameButPc s s :=
  ⟨fun _ => rfl, ⟨⟨rfl, rfl, rfl⟩, ⟨rfl, rfl, rfl⟩, rfl, rfl⟩, fun _ => rfl⟩

theorem sameButPc_jumpTo (s : State) (target : Half) : SameButPc s (s.jumpTo target) :=
  ⟨State.getReg_jumpTo s target, ⟨⟨rfl, rfl, rfl⟩, ⟨rfl, rfl, rfl⟩, rfl, rfl⟩, fun _ => rfl⟩

/-! ## The bodies -/

theorem execWith_jmp (c : Config) (target : Half) (s : State) :
    execWith c (.jmp target) s = .next (s.jumpTo target) := rfl

theorem execWith_jnz_of_ne_zero (c : Config) {rt : Byte} (target : Half) {s : State} (h : rt.toNat < 8)
    (hv : s.getReg ⟨rt.toNat, h⟩ ≠ 0) : execWith c (.jnz rt target) s = .next (s.jumpTo target) := by
  rw [execWith_jnz c target s h, if_pos ((branchTaken_iff _).2 hv)]

theorem execWith_jnz_of_eq_zero (c : Config) {rt : Byte} (target : Half) {s : State} (h : rt.toNat < 8)
    (hv : s.getReg ⟨rt.toNat, h⟩ = 0) : execWith c (.jnz rt target) s = .next s := by
  rw [execWith_jnz c target s h, if_neg (by rwa [branchTaken_iff, not_not])]

/-- Of the effects a body may have, only a jump writes `pc` (R172). -/
theorem execEffect_pc_eq {c : Config} {i : Instr} {s t : State} (h : ExecEffect c i s t)
    (hjmp : i.mnemonic ≠ .JMP) (hjnz : i.mnemonic ≠ .JNZ) : t.pc = s.pc := by
  cases h with
  | nothing | reg | load | store => rfl
  | jump d hjump =>
    obtain rfl | ⟨rt, _, rfl, -⟩ := hjump
    · exact absurd rfl hjmp
    · exact absurd rfl hjnz

/-- A JNZ run on the state the fetch leaves tests the register as it was before the step, and where it is 0 keeps the
advance the fetch has made (R113, R171). -/
theorem pc_of_execWith_jnz_afterFetch {c : Config} {rt : Byte} {target : Half} {s t : State} (h : rt.toNat < 8)
    (hexec : execWith c (.jnz rt target) (s.afterFetch c) = .next t) :
    t.pc.toNat = if s.getReg ⟨rt.toNat, h⟩ ≠ 0 then target.toNat else (s.pc.toNat + 4) % 2 ^ 32 := by
  rw [← State.getReg_afterFetch c s]
  split
  case isTrue hv =>
    cases (execWith_jnz_of_ne_zero c target h hv).symm.trans hexec
    exact jumpTarget_toNat target
  case isFalse hv =>
    cases (execWith_jnz_of_eq_zero c target h (not_not.1 hv)).symm.trans hexec
    exact afterFetch_pc_toNat c s

/-! ## The encoding -/

/-- R82's layout where the register field is written as 0 (R92). -/
theorem assemble_register_zero (o : Byte) (d : Half) :
    assemble o 0 d = o.setWidth 32 ||| (d.setWidth 32 <<< 16) := by
  simp [assemble]

/-! ## The obligations -/

/-- Settles O49: the decoded body runs on the state the fetch leaves, whose `pc` is the sequential successor. -/
theorem onlyJumpsLeaveTheSequence : Obligations.OnlyJumpsLeaveTheSequence := by
  intro c hm s t h
  obtain ⟨-, i, hdecode, hexec⟩ := stepWith_eq_next h
  refine ⟨fun hk => ?jmp, fun hk hr => ?jnz, fun hjmp hjnz => ?other⟩
  case jmp =>
    obtain rfl := eq_build_of_decodeWith hm hdecode hk
    cases (execWith_jmp c _ _).symm.trans hexec
    exact jumpTarget_toNat _
  case jnz =>
    obtain rfl := eq_build_of_decodeWith hm hdecode hk
    exact pc_of_execWith_jnz_afterFetch hr hexec
  case other =>
    rw [opcodeField_of_decodeWith hdecode] at hjmp hjnz
    have hpc := execEffect_pc_eq (execWith_effect hexec) (ne_of_apply_ne _ hjmp) (ne_of_apply_ne _ hjnz)
    rw [hpc, afterFetch_pc_toNat]

/-- Settles O36: the word is written with a register field of 0, and decodes whatever valid one it has. -/
theorem jmpSetsAbsoluteTarget : Obligations.JmpSetsAbsoluteTarget :=
  fun target s => ⟨fun _ => assemble_register_zero _ target,
    fun _ _ hm hk hr => decodeWith_of_opcode hm (decide_eq_true hr) hk,
    s.jumpTo target, (exec_eq_execWith _ s).trans (execWith_jmp _ target s), jumpTarget_toNat target,
    sameButPc_jumpTo s target⟩

/-- Settles O37, by whether the register is 0. -/
theorem jnzTestsTheRegister : Obligations.JnzTestsTheRegister := by
  intro rt target s h
  refine ⟨fun _ => rfl, ?_⟩
  rw [exec_eq_execWith]
  by_cases hv : s.getReg ⟨rt.toNat, h⟩ = 0
  · exact ⟨s, execWith_jnz_of_eq_zero _ target h hv, fun hne => absurd hv hne, fun _ => rfl, sameButPc_refl s⟩
  · exact ⟨s.jumpTo target, execWith_jnz_of_ne_zero _ target h hv, fun _ => jumpTarget_toNat target,
      fun hzero => absurd hzero hv, sameButPc_jumpTo s target⟩

end Sys2Proof.Proofs
end

section
/-! PROOFS. Exceptions: the errors a step may end in, in the order it judges them, the state each leaves, the refusals
it may answer, and the driver's operations between steps (60_exceptions.md R180 to R190). -/

open Sys2Proof Sys2Proof.Machine

namespace Sys2Proof.Proofs

/-! ## The errors before the body -/

/-- The decoder rejects an opcode only where no operation has it, and names the word's own (R182). -/
theorem decodeWith_eq_unknownOpcode {m : OpcodeMap} {w : Word} {o : Byte} (h : decodeWith m w = .unknownOpcode o) :
    o = opcodeField w ∧ ∀ k, m k ≠ opcodeField w := by
  unfold decodeWith at h
  split at h
  case isTrue =>
    split at h
    case h_1 => cases h
    case h_2 hk =>
      cases h
      exact ⟨rfl, OpcodeMap.lookup_eq_none.1 hk⟩
  case isFalse => cases h

/-- A register field above 7 raises, whatever the opcode, and leaves what the fetch left (R184, R186). -/
theorem stepWith_of_outOfRange {c : Config} {s : State} (hf : s.fetchable c)
    (hr : 7 < (registerField s.fetchWord).toNat) :
    stepWith c s = .fault (.outOfRangeRegister (registerField s.fetchWord) (s.afterFetch c)) := by
  have hfield : ¬ registerFieldOk (registerField s.fetchWord) = true := by
    rw [registerFieldOk_iff]
    omega
  exact (stepWith_of_fetchable hf).trans (dispatchWith_of_outOfRange (decodeWith_of_outOfRange _ hfield))

/-- A valid register field and an opcode outside the map raise, and leave what the fetch left (R182, R186). -/
theorem stepWith_of_unknown {c : Config} {s : State} (hf : s.fetchable c) (hr : (registerField s.fetchWord).toNat ≤ 7)
    (hk : ∀ k, c.opcodeMap k ≠ opcodeField s.fetchWord) :
    stepWith c s = .fault (.unknownOpcode (opcodeField s.fetchWord) (s.afterFetch c)) :=
  (stepWith_of_fetchable hf).trans (dispatchWith_of_unknown (decodeWith_of_unknown (decide_eq_true hr) hk))

/-- UnknownOpcode comes from the decoder only: neither the fetch nor a body raises it. -/
theorem stepWith_eq_unknownOpcode {c : Config} {s t : State} {o : Byte}
    (h : stepWith c s = .fault (.unknownOpcode o t)) :
    decodeWith c.opcodeMap s.fetchWord = .unknownOpcode o ∧ t = s.afterFetch c := by
  obtain ⟨-, hfault⟩ | ⟨-, hdispatch⟩ := stepWith_eq_fault h
  · cases hfault
  · obtain ⟨i, -, hexec⟩ | ⟨r, -, hfault⟩ | ⟨o, hdecode, hfault⟩ := dispatchWith_eq_fault hdispatch
    · cases execWith_error hexec
    · cases hfault
    · cases hfault
      exact ⟨hdecode, rfl⟩

/-! ## The errors of a word that decodes -/

theorem targetField_lt_of_decodeWith {m : OpcodeMap} {w : Word} {i : Instr} {rt : Byte}
    (h : decodeWith m w = .instr i) (ht : i.targetField = some rt) : rt.toNat < 8 := by
  obtain ⟨hr, k, -, rfl⟩ := decodeWith_eq_instr h
  rwa [Mnemonic.build_targetField ht]

/-- Where a word that decodes ends in an error, its body raised it. -/
theorem execError_of_stepWith_fault {c : Config} {s : State} {i : Instr} {f : Fault} (hf : s.fetchable c)
    (hd : decodeWith c.opcodeMap s.fetchWord = .instr i) (h : stepWith c s = .fault f) :
    ExecError c i (s.afterFetch c) f :=
  execWith_error ((stepWith_of_instr hf hd).symm.trans h)

/-- A body whose target register is valid raises only at a memory access. -/
theorem execError_memory {c : Config} {i : Instr} {s : State} {f : Fault} (h : ExecError c i s f)
    (hwf : ∀ rt, i.targetField = some rt → rt.toNat < 8) :
    i.mnemonic ∈ [Mnemonic.LOAD_DIRECT, .STORE_DIRECT, .LOAD_INDIRECT, .STORE_INDIRECT] ∧
      f.kind = .addressOverflow := by
  cases h with
  | register rt ht hr => exact absurd (hwf rt ht) hr
  | direct rt addr hi => rcases hi with rfl | rfl <;> exact ⟨by simp [Instr.mnemonic], rfl⟩
  | cell rt cell hi | pointer rt cell hi => rcases hi with rfl | rfl <;> exact ⟨by simp [Instr.mnemonic], rfl⟩

/-- On the default machine an address field always reaches its word, so only the access through a pointer raises. -/
theorem execError_default {i : Instr} {s : State} {f : Fault} (h : ExecError Config.default i s f)
    (hwf : ∀ rt, i.targetField = some rt → rt.toNat < 8) :
    (i.mnemonic = .LOAD_INDIRECT ∨ i.mnemonic = .STORE_INDIRECT) ∧ f.kind = .addressOverflow := by
  cases h with
  | register rt ht hr => exact absurd (hwf rt ht) hr
  | direct rt addr _ ha => exact absurd ((reaches_default _).2 (directAddress_le addr)) ha
  | cell rt cell _ hc => exact absurd ((reaches_default _).2 (pointerCell_le cell)) hc
  | pointer rt cell hi => exact ⟨hi.imp (congrArg Instr.mnemonic) (congrArg Instr.mnemonic), rfl⟩

/-! ## The refusals -/

/-- The dispatch adds no refusal of its own to those of the bodies. -/
theorem dispatchWith_eq_refused {m : OpcodeMap} {bodies : Instr → State → Result State} {s : State} {r : Refusal}
    (h : dispatchWith m bodies s = .refused r) : ∃ i, bodies i s = .refused r := by
  cases hd : decodeWith m s.ir with
  | instr i => exact ⟨i, (dispatchWith_of_instr hd).symm.trans h⟩
  | outOfRangeRegister field => cases (dispatchWith_of_outOfRange hd).symm.trans h
  | unknownOpcode opcode => cases (dispatchWith_of_unknown hd).symm.trans h

/-- A step is refused for a misaligned address only, of the fetch or of a data access (U10; log 5). -/
theorem stepWith_eq_refused {c : Config} {s : State} {r : Refusal} (h : stepWith c s = .refused r) :
    ∃ a : Word, r = .misalignedAccess a ∧ ¬ c.alignment ∣ a.toNat := by
  obtain ⟨-, e⟩ | ⟨-, e⟩ | ⟨hd, e⟩ := stepWith_cases c s
  · obtain ⟨i, hexec⟩ := dispatchWith_eq_refused (e.symm.trans h)
    exact execWith_refusal hexec
  · cases e.symm.trans h
  · cases e.symm.trans h
    exact ⟨s.pc, rfl, hd⟩

/-- Every address is a multiple of the default alignment, 1 (R57). -/
theorem step_ne_refused (s : State) (r : Refusal) : step s ≠ .refused r := by
  rw [step_eq_stepWith]
  intro h
  obtain ⟨a, -, hd⟩ := stepWith_eq_refused h
  exact hd (Nat.one_dvd _)

/-! ## The obligations -/

/-- Settles O45: the decoder alone raises UnknownOpcode, after the fetch, which writes no register and no byte. -/
theorem unknownOpcodeStopsTheStep : Obligations.UnknownOpcodeStopsTheStep := by
  refine fun c s hf hr => ⟨⟨fun hk => ⟨_, stepWith_of_unknown hf hr hk⟩, ?onlyUnknown⟩, fun o t h => ?frame⟩
  case onlyUnknown =>
    rintro ⟨t, h⟩
    obtain ⟨hdecode, -⟩ := stepWith_eq_unknownOpcode h
    exact (decodeWith_eq_unknownOpcode hdecode).2
  case frame =>
    obtain ⟨hdecode, rfl⟩ := stepWith_eq_unknownOpcode h
    obtain ⟨ho, -⟩ := decodeWith_eq_unknownOpcode hdecode
    obtain ⟨hregs, hmem, hinert, -⟩ := onlyFetched_afterFetch c s
    exact ⟨ho, hregs, hmem, hinert⟩

/-- Settles O46: one lemma for each error that comes before the body. -/
theorem errorPriorityAndStateLeft : Obligations.ErrorPriorityAndStateLeft :=
  fun _ _ => ⟨stepWith_of_not_reaches, stepWith_of_outOfRange, stepWith_of_unknown⟩

/-- Settles O47: the refusals of a step, and the errors of the decoded body, whose target register is valid. -/
theorem stepNeverRefuses : Obligations.StepNeverRefuses := by
  refine ⟨step_ne_refused, fun s i f hpc hd h => ?default, fun c s r => stepWith_eq_refused,
    fun c s i f hf hd h => ?anyParameters⟩
  case default =>
    rw [step_eq_stepWith] at h
    have herror := execError_of_stepWith_fault ((accepts_default _).2 hpc) hd h
    exact execError_default herror fun rt => targetField_lt_of_decodeWith hd
  case anyParameters =>
    exact execError_memory (execError_of_stepWith_fault hf hd h) fun rt => targetField_lt_of_decodeWith hd

/-- Settles O55: whichever error it was, it left the state before, the fetch's, or that with the pointer's latches. -/
theorem errorStateKeepsTheInvariant : Obligations.ErrorStateKeepsTheInvariant :=
  fun _ _ _ => inv_after_of_stepWith_fault

/-- Settles O20: `setPc` writes its field, and at the default parameters both reads go on. -/
theorem driverOperations : Obligations.DriverOperations :=
  ⟨fun v s => ⟨setPc_pc v s, rfl⟩, fun a s => guardByte_default a s _,
    fun a s ha => memReadWord_of_accepts s ((accepts_default a).2 ha)⟩

end Sys2Proof.Proofs
end

section
/-! PROOFS. Reset, the loader, and the placed word (70_reset_and_hazards.md R202, R203; 60_exceptions.md R190). -/

open Sys2Proof Sys2Proof.Machine

namespace Sys2Proof.Proofs

/-! ## What a load does -/

/-- A byte store looks at memory only, so it goes on alike from any state with that memory (R52). -/
theorem storeByte_of_mem_eq {c : Config} {a : Word} {b : Byte} {s u t : State} (h : storeByte c a b s = .next u)
    (ht : t.mem = s.mem) : storeByte c a b t = .next { t with mem := u.mem } := by
  unfold storeByte memWriteByte guardByte at h ⊢
  split at h
  case isTrue hb =>
    cases h
    rw [if_pos hb, ht]
  case isFalse => cases h

/-- A load that goes on from one state goes on from any with that memory, and changes nothing but memory. -/
theorem loadBytes_of_mem_eq {c : Config} {a : Word} {bytes : List Byte} {s u t : State}
    (h : loadBytes c a bytes s = .next u) (ht : t.mem = s.mem) :
    loadBytes c a bytes t = .next { t with mem := u.mem } := by
  induction bytes generalizing a s t with
  | nil =>
    cases h
    rw [← ht]
    rfl
  | cons b rest ih =>
    obtain ⟨v, hstore, hrest⟩ := andThen_eq_next h
    rw [loadBytes, storeByte_of_mem_eq hstore ht, andThen_next]
    exact ih hrest rfl

/-- The first byte goes to the start address, the others from the next address on. Addresses are given by number, so
that the address after the last byte may be 2^32. -/
theorem loadBytes_cons_eq_next {c : Config} {n : Nat} {b : Byte} {rest : List Byte} {s u : State} (hn : n < 2 ^ 32)
    (h : loadBytes c (BitVec.ofNat 32 n) (b :: rest) s = .next u) :
    loadBytes c (BitVec.ofNat 32 (n + 1)) rest { s with mem := s.mem.writeByte n b } = .next u := by
  obtain ⟨v, hstore, hrest⟩ := andThen_eq_next h
  obtain rfl := storeByte_eq_next hstore
  have hnext : BitVec.ofNat 32 n + 1 = BitVec.ofNat 32 (n + 1) := (BitVec.ofNat_add n 1).symm
  rwa [hnext, BitVec.toNat_ofNat, Nat.mod_eq_of_lt hn] at hrest

/-- Where it does not run past the top, a load leaves every byte outside its range as it was. -/
theorem readByte_loadBytes_of_outside {c : Config} {n : Nat} {bytes : List Byte} {s u : State}
    (h : loadBytes c (BitVec.ofNat 32 n) bytes s = .next u) (hn : n + bytes.length ≤ 2 ^ 32) {q : Nat}
    (hq : q < n ∨ n + bytes.length ≤ q) : u.mem.readByte q = s.mem.readByte q := by
  induction bytes generalizing n s with
  | nil =>
    cases h
    rfl
  | cons b rest ih =>
    rw [List.length_cons] at hn hq
    have hrest := loadBytes_cons_eq_next (by omega) h
    rw [ih hrest (by omega) (by omega), Memory.readByte_writeByte_ne _ b (by omega)]

/-- Where it does not run past the top, a load puts its byte `k` at the address `k` places on. -/
theorem readByte_loadBytes {c : Config} {n : Nat} {bytes : List Byte} {s u : State}
    (h : loadBytes c (BitVec.ofNat 32 n) bytes s = .next u) (hn : n + bytes.length ≤ 2 ^ 32) (k : Nat)
    (hk : k < bytes.length) : u.mem.readByte (n + k) = bytes[k] := by
  induction bytes generalizing n s k with
  | nil => cases hk
  | cons b rest ih =>
    rw [List.length_cons] at hn hk
    have hrest := loadBytes_cons_eq_next (by omega) h
    cases k with
    | zero =>
      rw [readByte_loadBytes_of_outside hrest (by omega) (by omega), Nat.add_zero, Memory.readByte_writeByte_self]
      rfl
    | succ k =>
      rw [← Nat.succ_add_eq_add_succ]
      exact ih hrest (by omega) k (by omega)

/-- With no cap, loading a word's four bytes is writing the word (R54, R82). -/
theorem loadBytes_wordBytes (a v : Word) (s : State) :
    loadBytes Config.default a (wordBytes v) s = .next { s with mem := s.mem.writeWord a v } := by
  have h2 : a + 1 + 1 = a + 2 := by bv_omega
  have h3 : a + 2 + 1 = a + 3 := by bv_omega
  simp only [wordBytes, loadBytes, storeByte, memWriteByte, guardByte_default, andThen_next, h2, h3, Memory.writeWord]

/-! ## Placing a word for the next fetch -/

/-- The word is placed at an address it can be fetched at, `pc` itself where `pc` is one, and nothing else changes. -/
theorem exists_placeInstruction_eq (s : State) (w : Word) :
    ∃ a : Word, a.toNat ≤ 0xFFFFFFFC ∧ (s.pc.toNat ≤ 0xFFFFFFFC → a = s.pc) ∧
      s.placeInstruction w = { s with pc := a, mem := s.mem.writeWord a w } := by
  have hbounds : wordInBounds Config.default s.pc = true ↔ s.pc.toNat ≤ 0xFFFFFFFC :=
    (wordInBounds_iff _ _).trans (reaches_default _)
  by_cases hpc : s.pc.toNat ≤ 0xFFFFFFFC
  · exact ⟨s.pc, hpc, fun _ => rfl, if_pos (hbounds.2 hpc)⟩
  · exact ⟨0, by decide, fun h => absurd h hpc, if_neg (mt hbounds.1 hpc)⟩

theorem tableWord_thirtyTwo (w : Nat) : tableWord 32 w = BitVec.ofNat 32 w := by
  apply BitVec.eq_of_toNat_eq
  simp [tableWord]

/-- A table word is an instruction exactly where the decoder says so of the word its bits stand for. -/
theorem decode_tableWord_of_decodeTableWord {nbits w : Nat} {i : Instr} (h : decodeTableWord nbits w = some i) :
    decode (tableWord nbits w) = .instr i := by
  simp only [decodeTableWord, wordBytes, decodeBytes, wordOfBytes_wordByte] at h
  cases hd : decode (tableWord nbits w) with
  | instr j =>
    rw [hd] at h
    cases h
    rfl
  | outOfRangeRegister | unknownOpcode =>
    rw [hd] at h
    cases h

/-! ## The obligations -/

/-- Settles O18: a load looks at memory only and writes nothing else, so it commutes with construct. -/
theorem constructAndLoadCommute : Obligations.ConstructAndLoadCommute := by
  refine ⟨State.construct_mem, fun a => guardByte_default a _ _, fun c a bytes s u h => ?load, loadBytes_default⟩
  case load =>
    have hframe : u = { s with mem := u.mem } :=
      Host.Outcome.next.inj (h.symm.trans (loadBytes_of_mem_eq h rfl))
    refine ⟨loadBytes_of_mem_eq h (State.construct_mem _), hframe, fun htop => ?_⟩
    have hnumber : loadBytes c (BitVec.ofNat 32 a.toNat) bytes s = .next u := by simpa using h
    exact ⟨readByte_loadBytes hnumber htop, fun q => readByte_loadBytes_of_outside hnumber htop⟩

/-- Settles O21: the four bytes of the encoding are a word write, and the word is read back. -/
theorem loaderPlacesTheEncoding : Obligations.LoaderPlacesTheEncoding := by
  intro i a s ha
  refine ⟨_, loadBytes_wordBytes a (encode i) s, ?inspected, sameMemoryBut_of_writeWord rfl, rfl⟩
  case inspected =>
    exact (memReadWord_of_accepts _ ((accepts_default a).2 ha)).trans
      (congrArg _ (Memory.readWord_writeWord_self s.mem a (encode i)))

/-- Settles O44: the placed word is the one fetched, and it decodes to `i`. -/
theorem placedWordIsExecutedNext : Obligations.PlacedWordIsExecutedNext := by
  intro s w i h
  obtain ⟨a, ha, hpc, hplaced⟩ := exists_placeInstruction_eq s (tableWord 32 w)
  have hdecode := decode_tableWord_of_decodeTableWord h
  rw [State.withFetchWord, hplaced, ← tableWord_thirtyTwo]
  have hword : State.fetchWord { s with pc := a, mem := s.mem.writeWord a (tableWord 32 w) } = tableWord 32 w :=
    Memory.readWord_writeWord_self _ _ _
  refine ⟨?step, hword, hpc, sameMemoryBut_of_writeWord rfl, rfl⟩
  case step =>
    rw [step_eq_stepWith, exec_eq_execWith]
    refine stepWith_of_instr ((accepts_default a).2 ha) ?_
    rw [hword]
    exact hdecode

end Sys2Proof.Proofs
end

section
/-! PROOFS. The runs of a driver under the two stopping protocols, and how they end (70_reset_and_hazards.md R207,
R208; 60_exceptions.md R185). -/

open Sys2Proof Sys2Proof.Machine

namespace Sys2Proof.Proofs

/-! ## PEEK's check on both sides of a cap -/

theorem not_belowCap_iff (c : Config) (last : Nat) :
    ¬ belowCap c last = true ↔ ∃ cap, c.addrCap = some cap ∧ cap ≤ last := by
  cases hc : c.addrCap with
  | none => simp [belowCap, hc]
  | some cap => simp [belowCap_iff_of_cap hc]

/-- Below the cap the check goes on: it ends the run where the byte at `pc` is HALT's opcode, and only there. -/
theorem peekThen_of_belowCap {c : Config} {s : State} (goOn : RunEnd) (h : belowCap c s.pc.toNat = true) :
    peekThen c s goOn = if s.mem.readByte s.pc.toNat = c.opcodeMap .HALT then .halted s else goOn := by
  simp [peekThen, peeksHalt_of_belowCap h]

/-- At or beyond the cap the check raises and the run ends in its error (R59; log 23). -/
theorem peekThen_of_not_belowCap {c : Config} {s : State} (goOn : RunEnd) (h : ¬ belowCap c s.pc.toNat = true) :
    peekThen c s goOn = .error (.addressOverflow s.pc s) := by
  simp [peekThen, peeksHalt_of_not_belowCap h]

/-- Whatever its bound, a PEEK run begins with the check. -/
theorem exists_runPeek_eq_peekThen (c : Config) (n : Nat) (s : State) : ∃ goOn, runPeek c n s = peekThen c s goOn := by
  cases n with
  | zero => exact ⟨_, rfl⟩
  | succ n => exact ⟨_, rfl⟩

/-- A run ends halted after the check only where the check saw HALT's opcode, or the rest of the run ended so. -/
theorem peekThen_eq_halted {c : Config} {s p : State} {goOn : RunEnd} (h : peekThen c s goOn = .halted p) :
    (s = p ∧ opcodeField s.fetchWord = c.opcodeMap .HALT) ∨
      (opcodeField s.fetchWord ≠ c.opcodeMap .HALT ∧ goOn = .halted p) := by
  rw [State.fetchWord, Memory.opcodeField_readWord]
  by_cases hb : belowCap c s.pc.toNat = true
  · rw [peekThen_of_belowCap goOn hb] at h
    split at h
    case isTrue hk => exact .inl ⟨RunEnd.halted.inj h, hk⟩
    case isFalse hk => exact .inr ⟨hk, h⟩
  · rw [peekThen_of_not_belowCap goOn hb] at h
    cases h

/-! ## One step of each run, by the opcode the step executes -/

/-- A HALT that can be executed leaves what the fetch leaves (R130). -/
theorem stepWith_of_haltOpcode {c : Config} {s : State} (hf : s.fetchable c)
    (hr : registerFieldOk (registerField s.fetchWord) = true) (hk : opcodeField s.fetchWord = c.opcodeMap .HALT) :
    stepWith c s = .next (s.afterFetch c) :=
  stepWith_of_instr hf (decodeWith_of_haltOpcode hr hk)

/-- A step that executed HALT left what the fetch left. -/
theorem eq_afterFetch_of_haltOpcode {c : Config} {s t : State} (h : stepWith c s = .next t)
    (hk : opcodeField s.fetchWord = c.opcodeMap .HALT) : t = s.afterFetch c := by
  obtain ⟨hf, i, hdecode, -⟩ := stepWith_eq_next h
  obtain ⟨hr, -⟩ := decodeWith_eq_instr hdecode
  rw [stepWith_of_haltOpcode hf ((registerFieldOk_iff _).2 hr) hk] at h
  cases h
  rfl

theorem runSignal_succ_of_haltOpcode {c : Config} {s t : State} (n : Nat) (h : stepWith c s = .next t)
    (hk : opcodeField s.fetchWord = c.opcodeMap .HALT) : runSignal c (n + 1) s = .halted t := by
  simp [runSignal, h, halted_of_stepWith_eq_next h, hk]

theorem runSignal_succ_of_ne_haltOpcode {c : Config} {s t : State} (n : Nat) (h : stepWith c s = .next t)
    (hk : opcodeField s.fetchWord ≠ c.opcodeMap .HALT) : runSignal c (n + 1) s = runSignal c n t := by
  simp [runSignal, h, halted_of_stepWith_eq_next h, hk]

/-- A step that goes on fetched, so PEEK's check before it went on too, and saw the opcode the step executed. -/
theorem peekThen_of_stepWith_eq_next {c : Config} {s t : State} (goOn : RunEnd) (h : stepWith c s = .next t) :
    peekThen c s goOn = if opcodeField s.fetchWord = c.opcodeMap .HALT then .halted s else goOn := by
  obtain ⟨⟨hreach, -⟩, -⟩ := stepWith_eq_next h
  rw [State.fetchWord, Memory.opcodeField_readWord]
  exact peekThen_of_belowCap goOn (belowCap_of_reaches hreach)

theorem runPeek_of_haltOpcode {c : Config} {s t : State} (n : Nat) (h : stepWith c s = .next t)
    (hk : opcodeField s.fetchWord = c.opcodeMap .HALT) : runPeek c n s = .halted s := by
  obtain ⟨goOn, hrun⟩ := exists_runPeek_eq_peekThen c n s
  rw [hrun, peekThen_of_stepWith_eq_next goOn h, if_pos hk]

theorem runPeek_succ_of_ne_haltOpcode {c : Config} {s t : State} (n : Nat) (h : stepWith c s = .next t)
    (hk : opcodeField s.fetchWord ≠ c.opcodeMap .HALT) : runPeek c (n + 1) s = runPeek c n t := by
  rw [runPeek, peekThen_of_stepWith_eq_next _ h, if_neg hk, h]

/-! ## Steps that execute no HALT are steps of either run -/

theorem haltFree_succ {c : Config} {k : Nat} {s t : State} (hfree : HaltFree c (k + 1) s)
    (h : stepWith c s = .next t) : opcodeField s.fetchWord ≠ c.opcodeMap .HALT ∧ HaltFree c k t :=
  ⟨hfree 0 k.succ_pos s rfl, fun j hj u hu => hfree (j + 1) (Nat.succ_lt_succ hj) u ⟨t, h, hu⟩⟩

/-- Stated for any run that a step without HALT takes from `n + 1` to `n`, as it does both protocols'. -/
theorem run_add_of_haltFree {c : Config} {run : Nat → State → RunEnd}
    (hrun : ∀ {s t : State} (n : Nat), stepWith c s = .next t → opcodeField s.fetchWord ≠ c.opcodeMap .HALT →
      run (n + 1) s = run n t)
    {k : Nat} {s u : State} (n : Nat) (hfree : HaltFree c k s) (h : StepsTo c k s u) : run (k + n) s = run n u := by
  induction k generalizing s with
  | zero =>
    cases h
    rw [Nat.zero_add]
  | succ k ih =>
    obtain ⟨t, hstep, hrest⟩ := h
    obtain ⟨hk, hfree⟩ := haltFree_succ hfree hstep
    rw [Nat.succ_add, hrun _ hstep hk, ih hfree hrest]

theorem runSignal_add_of_haltFree {c : Config} {k : Nat} {s u : State} (n : Nat) (hfree : HaltFree c k s)
    (h : StepsTo c k s u) : runSignal c (k + n) s = runSignal c n u :=
  run_add_of_haltFree runSignal_succ_of_ne_haltOpcode n hfree h

theorem runPeek_add_of_haltFree {c : Config} {k : Nat} {s u : State} (n : Nat) (hfree : HaltFree c k s)
    (h : StepsTo c k s u) : runPeek c (k + n) s = runPeek c n u :=
  run_add_of_haltFree runPeek_succ_of_ne_haltOpcode n hfree h

/-! ## The step that raises ends the run -/

theorem runSignal_of_stepWith_fault {c : Config} {n : Nat} {s : State} {f : Fault} (h : stepWith c s = .fault f) :
    runSignal c (n + 1) s = .error f := by
  rw [runSignal, h]

/-- PEEK's check sees no HALT and the step raises; or the check raises, with the error the step's fetch would raise. -/
theorem runPeek_of_stepWith_fault {c : Config} {n : Nat} {s : State} {f : Fault} (h : stepWith c s = .fault f)
    (hs : s.mem.readByte s.pc.toNat ≠ c.opcodeMap .HALT ∨ ¬ belowCap c s.pc.toNat = true) :
    runPeek c (n + 1) s = .error f := by
  by_cases hb : belowCap c s.pc.toNat = true
  · rw [runPeek, peekThen_of_belowCap _ hb, if_neg (hs.resolve_right (not_not_intro hb)), h]
  · rw [stepWith_of_not_reaches (mt belowCap_of_reaches hb)] at h
    cases h
    exact peekThen_of_not_belowCap _ hb

/-! ## The two protocols agree -/

/-- A SIGNAL run that ends halted began with a step that went on: the HALT, or one before it. -/
theorem runSignal_succ_eq_halted {c : Config} {n : Nat} {s t : State} (h : runSignal c (n + 1) s = .halted t) :
    ∃ u, stepWith c s = .next u ∧
      ((opcodeField s.fetchWord = c.opcodeMap .HALT ∧ u = t) ∨
        (opcodeField s.fetchWord ≠ c.opcodeMap .HALT ∧ runSignal c n u = .halted t)) := by
  cases hstep : stepWith c s with
  | next u =>
    refine ⟨u, rfl, ?_⟩
    by_cases hk : opcodeField s.fetchWord = c.opcodeMap .HALT
    · exact .inl ⟨hk, RunEnd.halted.inj ((runSignal_succ_of_haltOpcode n hstep hk).symm.trans h)⟩
    · exact .inr ⟨hk, (runSignal_succ_of_ne_haltOpcode n hstep hk).symm.trans h⟩
  | fault f =>
    rw [runSignal_of_stepWith_fault hstep] at h
    cases h
  | refused r =>
    rw [runSignal, hstep] at h
    cases h

/-- A PEEK run that ends halted ends before its first step, at a HALT, or went on with a step that was none. -/
theorem runPeek_eq_halted {c : Config} {n : Nat} {s p : State} (h : runPeek c n s = .halted p) :
    (s = p ∧ opcodeField s.fetchWord = c.opcodeMap .HALT) ∨
      ∃ m u, n = m + 1 ∧ stepWith c s = .next u ∧ opcodeField s.fetchWord ≠ c.opcodeMap .HALT ∧
        runPeek c m u = .halted p := by
  cases n with
  | zero =>
    obtain hhere | ⟨-, hbound⟩ := peekThen_eq_halted h
    · exact .inl hhere
    · cases hbound
  | succ m =>
    obtain hhere | ⟨hk, hgoOn⟩ := peekThen_eq_halted h
    · exact .inl hhere
    · split at hgoOn
      case h_1 u hstep => exact .inr ⟨m, u, rfl, hstep, hk, hgoOn⟩
      case h_2 => cases hgoOn
      case h_3 => cases hgoOn

/-- Where SIGNAL ends at a HALT, PEEK with one step less ends before it. -/
theorem exists_runPeek_of_runSignal_halted {c : Config} {n : Nat} {s t : State}
    (h : runSignal c (n + 1) s = .halted t) : ∃ p, runPeek c n s = .halted p ∧ t = p.afterFetch c := by
  induction n generalizing s with
  | zero =>
    obtain ⟨u, hstep, ⟨hk, rfl⟩ | ⟨-, hbound⟩⟩ := runSignal_succ_eq_halted h
    · exact ⟨s, runPeek_of_haltOpcode 0 hstep hk, eq_afterFetch_of_haltOpcode hstep hk⟩
    · cases hbound
  | succ n ih =>
    obtain ⟨u, hstep, ⟨hk, rfl⟩ | ⟨hk, hrest⟩⟩ := runSignal_succ_eq_halted h
    · exact ⟨s, runPeek_of_haltOpcode (n + 1) hstep hk, eq_afterFetch_of_haltOpcode hstep hk⟩
    · rw [runPeek_succ_of_ne_haltOpcode n hstep hk]
      exact ih hrest

/-- Where PEEK ends before a HALT that can be executed, SIGNAL with one step more executes it. -/
theorem runSignal_of_runPeek_halted {c : Config} {n : Nat} {s p : State} (hf : p.fetchable c)
    (hr : registerFieldOk (registerField p.fetchWord) = true) (h : runPeek c n s = .halted p) :
    runSignal c (n + 1) s = .halted (p.afterFetch c) := by
  induction n generalizing s with
  | zero =>
    obtain ⟨rfl, hk⟩ | ⟨_, _, hn, -⟩ := runPeek_eq_halted h
    · exact runSignal_succ_of_haltOpcode 0 (stepWith_of_haltOpcode hf hr hk) hk
    · cases hn
  | succ n ih =>
    obtain ⟨rfl, hk⟩ | ⟨_, u, ⟨⟩, hstep, hk, hrest⟩ := runPeek_eq_halted h
    · exact runSignal_succ_of_haltOpcode (n + 1) (stepWith_of_haltOpcode hf hr hk) hk
    · rw [runSignal_succ_of_ne_haltOpcode (n + 1) hstep hk]
      exact ih hrest

/-! ## The obligations -/

/-- Settles O57, by induction on the bound in each direction. -/
theorem peekAndSignalAgree : Obligations.PeekAndSignalAgree := by
  refine fun c n s => ⟨fun t h => ?toPeek, fun p h hf hr => ?toSignal⟩
  case toPeek =>
    obtain ⟨p, hpeek, rfl⟩ := exists_runPeek_of_runSignal_halted h
    obtain ⟨hregs, hmem, -, -, -, hir, -, -, hpc⟩ := onlyFetched_afterFetch c p
    exact ⟨p, hpeek, hregs, hmem, hpc, hir⟩
  case toSignal =>
    obtain ⟨hregs, hmem, -⟩ := onlyFetched_afterFetch c p
    exact ⟨_, runSignal_of_runPeek_halted hf (decide_eq_true hr) h, hregs, hmem⟩

/-- Settles O58: the steps without HALT are steps of the run, and leave it the bound 0, or the HALT to execute. -/
theorem safeRunEndsWithoutError : Obligations.SafeRunEndsWithoutError := by
  refine fun c n s _ => ⟨fun hfree t hsteps => ?bound, fun k hk u v hfree hsteps hhalt hstep => ?halted⟩
  case bound => exact runSignal_add_of_haltFree 0 hfree hsteps
  case halted =>
    obtain ⟨m, rfl⟩ := Nat.exists_eq_add_of_lt hk
    rw [Nat.add_assoc, runSignal_add_of_haltFree (m + 1) hfree hsteps]
    exact runSignal_succ_of_haltOpcode m hstep hhalt

/-- Settles O59: the steps without HALT are steps of either run, and leave it the step that raises. -/
theorem errorEndsTheRun : Obligations.ErrorEndsTheRun := by
  intro c n k s u f hk hfree hsteps hfault
  obtain ⟨m, rfl⟩ := Nat.exists_eq_add_of_lt hk
  rw [Nat.add_assoc, runSignal_add_of_haltFree (m + 1) hfree hsteps, runPeek_add_of_haltFree (m + 1) hfree hsteps,
    ← not_belowCap_iff]
  exact ⟨runSignal_of_stepWith_fault hfault, runPeek_of_stepWith_fault hfault⟩

/-- Settles O60: the check on both sides of the cap, and the run, which begins with it. -/
theorem peekChecksTheByteAtPc : Obligations.PeekChecksTheByteAtPc := by
  intro c n s beyond
  have hbeyond : ¬ belowCap c s.pc.toNat = true ↔ beyond := not_belowCap_iff c _
  obtain ⟨goOn, hrun⟩ := exists_runPeek_eq_peekThen c n s
  rw [← hbeyond, not_not, hrun]
  refine ⟨fun hb => ?raises, fun hb => ?goesOn⟩
  case raises => exact ⟨peeksHalt_of_not_belowCap hb, peekThen_of_not_belowCap goOn hb⟩
  case goesOn =>
    refine ⟨_, peeksHalt_of_belowCap hb, beq_iff_eq, fun hk => ?_⟩
    rw [peekThen_of_belowCap goOn hb, if_pos (beq_iff_eq.1 hk)]

end Sys2Proof.Proofs
end
